-- ==== Sys2Proof/Word.lean ====
section
/-! DEFINITION. The bit vectors of the core (00_scope.md R7, R8, R10): every value is unsigned. -/

namespace Sys2Proof

/-- A Word is 32 bits (R10). -/
abbrev Word := BitVec 32

/-- A byte is 8 bits (R10). -/
abbrev Byte := BitVec 8

/-- A command word CW[10:0] (30_encoding.md R52). -/
abbrev CmdWord := BitVec 11

end Sys2Proof
end

