-- ==== Sys2Proof/Syntax.lean ====
section
/-! DEFINITION. The commands of the core: one constructor per row of spec/opcode_table.json (30_encoding.md R56).
The operand fields carry their widths (R54), and ignored DATA bits have no place here (R55). -/

namespace Sys2Proof

/-- A decoded command. -/
inductive Instr where
  /-- OP 000 (45_commands.md R103). -/
  | nop
  /-- OP 001 (R104). -/
  | init
  /-- OP 010, BYTE = DATA[7:0] (R105). -/
  | update (byte : Byte)
  /-- OP 011 (R106). -/
  | final
  /-- OP 100, IDX = DATA[4:0] (R107). -/
  | read (idx : BitVec 5)
  /-- OP 101 (R108). -/
  | rdstat
  /-- OP 110, reserved (R109). -/
  | reserved6
  /-- OP 111, reserved (R109). -/
  | reserved7
  deriving DecidableEq, Repr

end Sys2Proof
end

