-- ==== Sys2Proof/WellFormed.lean ====
section
/-! DEFINITION. Well-formed command terms. The operands of `Instr` carry their widths, so no `Instr` is ill formed;
what can be is a line of a command program (30_encoding.md R59, R60), whose operands are numbers an assembler must
refuse when they are out of range. -/

namespace Sys2Proof

/-- One line of a command program: the mnemonics and `.word` of R59 and the pseudo-commands of R60. -/
inductive AsmLine where
  | nop
  | init
  | update (byte : Nat)
  | final
  | read (idx : Nat)
  | rdstat
  /-- `.word w`, the raw 11-bit word. -/
  | word (w : Nat)
  /-- `UPDATES "<bytes>"`. -/
  | updates (bytes : List Byte)
  /-- `READALL`. -/
  | readAll
  /-- `HASH "<bytes>"`. -/
  | hash (bytes : List Byte)
  deriving DecidableEq, Repr

/-- The operand is in range: a byte is at most 255, an index at most 31, a raw word at most 0x7FF (R59). -/
def AsmLine.wellFormed : AsmLine → Bool
  | .update byte => byte ≤ 255
  | .read idx => idx ≤ 31
  | .word w => w ≤ 0x7FF
  | .nop | .init | .final | .rdstat | .updates _ | .readAll | .hash _ => true

end Sys2Proof
end

