-- ==== Sys2Proof/Decode.lean ====
section
/-! DEFINITION. Decoding and encoding of command words (30_encoding.md R52 to R60). -/

namespace Sys2Proof

/-! ### Decoding -/

/-- The field OP = CW[10:8] (R52). -/
def opField (cw : CmdWord) : BitVec 3 := cw.extractLsb' 8 3

/-- The field DATA = CW[7:0] (R52). -/
def dataField (cw : CmdWord) : Byte := cw.extractLsb' 0 8

/-- BYTE = DATA[7:0], the operand of UPDATE (R54). -/
def byteOperand (data : Byte) : Byte := data

/-- IDX = DATA[4:0], the operand of READ; DATA[7:5] is ignored (R54). -/
def idxOperand (data : Byte) : BitVec 5 := data.extractLsb' 0 5

/-- The command of the two fields of a word: OP alone selects the row (R54, R56). -/
def decodeFields (op : BitVec 3) (data : Byte) : Instr :=
  match op.toFin with
  | 0 => .nop
  | 1 => .init
  | 2 => .update (byteOperand data)
  | 3 => .final
  | 4 => .read (idxOperand data)
  | 5 => .rdstat
  | 6 => .reserved6
  | 7 => .reserved7

/-- The command a word stands for; every one of the 2^11 words has one (R52, R56). -/
def decode (cw : CmdWord) : Instr := decodeFields (opField cw) (dataField cw)

/-- Why a number is no command. -/
inductive DecodeReject where
  /-- A command is exactly one 11-bit word (R53), and the number has a bit above bit 10. -/
  | widerThanElevenBits
  deriving DecidableEq, Repr

/-- The command a number stands for, or why it is none. -/
def decodeNat (w : Nat) : Except DecodeReject Instr :=
  if w < 2 ^ 11 then .ok (decode (BitVec.ofNat 11 w)) else .error .widerThanElevenBits

/-- The decoder on a word numbered as spec/opcode_table.json numbers it; only its low `nbits` bits are given,
and every bit above them is 0. -/
def decodeTableWord (nbits w : Nat) : Option Instr :=
  match decodeNat (w % 2 ^ nbits) with
  | .ok i => some i
  | .error _ => none

/-! ### The rows of the opcode map -/

/-- A row of the opcode map of R56: the word's OP bits are fixed by `mask` and `pattern`. -/
structure OpcodeRow where
  pattern : CmdWord
  mask : CmdWord
  mnemonic : String
  deriving DecidableEq, Repr

/-- The opcode map of R56. -/
def opcodeMap : List OpcodeRow :=
  [ ⟨0x000#11, 0x700#11, "NOP"⟩,
    ⟨0x100#11, 0x700#11, "INIT"⟩,
    ⟨0x200#11, 0x700#11, "UPDATE"⟩,
    ⟨0x300#11, 0x700#11, "FINAL"⟩,
    ⟨0x400#11, 0x700#11, "READ"⟩,
    ⟨0x500#11, 0x700#11, "RDSTAT"⟩,
    ⟨0x600#11, 0x700#11, "RESERVED6"⟩,
    ⟨0x700#11, 0x700#11, "RESERVED7"⟩ ]

/-- A word selects the row whose pattern equals the word under the row's mask (R56). -/
def OpcodeRow.selects (r : OpcodeRow) (cw : CmdWord) : Bool := cw &&& r.mask == r.pattern

/-- The mnemonic of a command's row. -/
def Instr.mnemonic : Instr → String
  | .nop => "NOP"
  | .init => "INIT"
  | .update _ => "UPDATE"
  | .final => "FINAL"
  | .read _ => "READ"
  | .rdstat => "RDSTAT"
  | .reserved6 => "RESERVED6"
  | .reserved7 => "RESERVED7"

/-! ### Encoding -/

/-- The word `{OP, DATA}` (R52). -/
def commandWord (op : BitVec 3) (data : Byte) : CmdWord := op ++ data

/-- The canonical word of a command: its ignored bits are 0 (R55, R56). -/
def encode : Instr → CmdWord
  | .nop => commandWord 0b000#3 0x00#8
  | .init => commandWord 0b001#3 0x00#8
  | .update byte => commandWord 0b010#3 byte
  | .final => commandWord 0b011#3 0x00#8
  | .read idx => commandWord 0b100#3 (0b000#3 ++ idx)
  | .rdstat => commandWord 0b101#3 0x00#8
  | .reserved6 => commandWord 0b110#3 0x00#8
  | .reserved7 => commandWord 0b111#3 0x00#8

/-- The DATA bits a command ignores, as a mask over the word (R54, R55). -/
def ignoredBits : Instr → CmdWord
  | .update _ => 0x000#11
  | .read _ => 0x0E0#11
  | .nop | .init | .final | .rdstat | .reserved6 | .reserved7 => 0x0FF#11

/-! ### Command programs -/

/-- Why an assembler refuses a line: it never truncates an operand (R59). -/
inductive AsmReject where
  | byteAbove255
  | indexAbove31
  | wordAbove0x7FF
  /-- The text is no line of the assembly syntax. -/
  | malformedLine
  deriving DecidableEq, Repr

/-- One UPDATE word per byte, left to right (R60). -/
def updatesWords (bytes : List Byte) : List CmdWord := bytes.map fun b => encode (.update b)

/-- READ 0, READ 1, ..., READ 31 (R60). -/
def readAllWords : List CmdWord := (List.range 32).map fun i => encode (.read (BitVec.ofNat 5 i))

/-- INIT, one UPDATE per byte, FINAL: the source's `new`, `update` and `finalize` (R60, 45_commands.md R111). -/
def absorbWords (bytes : List Byte) : List CmdWord :=
  encode .init :: (updatesWords bytes ++ [encode .final])

/-- The words a line of a command program stands for (R59, R60). -/
def assemble : AsmLine → Except AsmReject (List CmdWord)
  | .nop => .ok [encode .nop]
  | .init => .ok [encode .init]
  | .update byte =>
    if byte ≤ 255 then .ok [encode (.update (BitVec.ofNat 8 byte))] else .error .byteAbove255
  | .final => .ok [encode .final]
  | .read idx => if idx ≤ 31 then .ok [encode (.read (BitVec.ofNat 5 idx))] else .error .indexAbove31
  | .rdstat => .ok [encode .rdstat]
  | .word w => if w ≤ 0x7FF then .ok [BitVec.ofNat 11 w] else .error .wordAbove0x7FF
  | .updates bytes => .ok (updatesWords bytes)
  | .readAll => .ok readAllWords
  | .hash bytes => .ok (absorbWords bytes ++ readAllWords)

/-- The words of a command program, its lines in order (R59). -/
def assembleProgram : List AsmLine → Except AsmReject (List CmdWord)
  | [] => .ok []
  | line :: rest =>
    match assemble line, assembleProgram rest with
    | .ok ws, .ok more => .ok (ws ++ more)
    | .error e, _ => .error e
    | _, .error e => .error e

end Sys2Proof
end

