-- ==== Sys2Proof/Machine/Datapath.lean ====
section
/-! DEFINITION. The word datapath (40_word_arithmetic.md). Addition (R61) and AND, XOR, NOT (R64) are those of
`BitVec 32`: modulo 2^32, no flag, no carry kept. -/

namespace Sys2Proof.Machine

/-- `shr(x, n)`, the logical shift right (R63); it is used with n = 3 and 10. -/
def shr (x : Word) (n : Nat) : Word := x >>> n

/-- `rotr(x, n)` as R62 writes it, for 1 ≤ n ≤ 31; only 2, 6, 7, 11, 13, 17, 18, 19, 22 and 25 are used. -/
def rotr (x : Word) (n : Nat) : Word := shr x n ||| (x <<< (32 - n))

/-- S0, applied to working register a (R65). -/
def bigS0 (x : Word) : Word := rotr x 2 ^^^ rotr x 13 ^^^ rotr x 22

/-- S1, applied to working register e (R66). -/
def bigS1 (x : Word) : Word := rotr x 6 ^^^ rotr x 11 ^^^ rotr x 25

/-- ch, choose (R67). -/
def ch (e f g : Word) : Word := (e &&& f) ^^^ (~~~e &&& g)

/-- maj, majority (R68). -/
def maj (a b c : Word) : Word := (a &&& b) ^^^ (a &&& c) ^^^ (b &&& c)

/-- s0 of the schedule (R69). -/
def smallS0 (x : Word) : Word := rotr x 7 ^^^ rotr x 18 ^^^ shr x 3

/-- s1 of the schedule (R70). -/
def smallS1 (x : Word) : Word := rotr x 17 ^^^ rotr x 19 ^^^ shr x 10

end Sys2Proof.Machine
end

