-- ==== Sys2Proof/Config.lean ====
section
/-! DEFINITION. What is fixed for the block (00_scope.md R7, R8) and the free values (R13, `ANY`).

The open parameters T_BLOCK and NUM_CORES (R9) are arguments where they are used (Machine/Timing.lean,
Machine/Platform.lean); no rule's architectural result depends on either. -/

namespace Sys2Proof.Config

/-- MAX_MSG_BYTES = 2^61 - 1, the largest value NBYTES takes (R8, R25). -/
def maxMsgBytes : BitVec 61 := 2305843009213693951#61

/-! ### Free values

Each is `ANY` of the spec (R13): a constant with no body, applied to the number of draws made so far
(`State.draws`), so that nothing can be proved of its value and two draws of one core need not agree. Two cores, or two
runs, with the same count draw the same value: DESIGN CHOICE, unsafe, log entry 22. -/

/-- RSP_DATA after an erroring READ (45_commands.md R107). Log entry 6. -/
opaque anyReadByte : Nat → Byte

/-- RSP_DATA after a reset edge (70_reset_and_hazards.md R132). Log entry 5. -/
opaque anyResetRspData : Nat → Byte

/-- HS[0..7] after a reset edge (R132). Log entry 5. -/
opaque anyHashState : Nat → Vector Word 8

/-- NBYTES after a reset edge (R132). Log entry 5. -/
opaque anyNbytes : Nat → BitVec 61

/-- BUF[i] after a reset edge, the second argument being i (R132). Log entry 5. -/
opaque anyBufByte : Nat → Nat → Byte

/-- W[0..63] after a reset edge (R132). Log entry 5. -/
opaque anySchedule : Nat → Vector Word 64

/-- The working registers a..h after a reset edge, in that order (R132). Log entry 5. -/
opaque anyWorking : Nat → Vector Word 8

/-- RND, 7 bits, after a reset edge (R132). Log entry 5. -/
opaque anyRnd : Nat → BitVec 7

/-- CONT after a reset edge, as the index of one of its three values (R132). Log entry 5. -/
opaque anyCont : Nat → Fin 3

end Sys2Proof.Config
end

