-- ==== Sys2Proof/Machine/State.lean ====
section
/-! DEFINITION. The state of one core (10_state.md R16), what the host drives on its ports (R33), and the reasons a
step can stop. -/

namespace Sys2Proof.Machine

/-- PHASE, the architectural mode of the computation (R17). -/
inductive Phase where
  | idle
  | absorb
  | done
  | fault
  deriving DecidableEq, Repr

/-- SEQ, the sequencer of the compressor (R26). -/
inductive Seq where
  /-- S_IDLE: the core is not compressing. -/
  | idle
  /-- S_LOAD. -/
  | load
  /-- S_ROUND. -/
  | round
  /-- S_ACC. -/
  | acc
  deriving DecidableEq, Repr

/-- CONT, what S_ACC does after the accumulation (R26). -/
inductive Cont where
  /-- C_ABSORB. -/
  | absorb
  /-- C_PAD2. -/
  | pad2
  /-- C_DONE. -/
  | done
  deriving DecidableEq, Repr

/-- The three errors (60_exceptions.md R113). -/
inductive CmdError where
  /-- ERR_USAGE (R114). -/
  | usage
  /-- ERR_ILLEGAL (R115). -/
  | illegal
  /-- ERR_LEN (R116). -/
  | len
  deriving DecidableEq, Repr

/-- The working registers a, b, c, d, e, f, g, h (R22). -/
structure Working where
  a : Word
  b : Word
  c : Word
  d : Word
  e : Word
  f : Word
  g : Word
  h : Word
  deriving DecidableEq, Repr

/-- HS[0..7], the hash state (R21). -/
abbrev HashState := Vector Word 8

/-- BUF[0..63] as a list of (address, byte) in one canonical form: addresses strictly rising and below 64, and no
byte listed that an unlisted address reads as (R24, 20_memory.md R34). -/
abbrev Memory := List Host.Cell

/-- What an unlisted byte of BUF reads as. The spec gives BUF no reset contents (70_reset_and_hazards.md R132):
DESIGN CHOICE, unsafe, log entry 4. -/
abbrev Memory.unlisted : Byte := 0x00#8

/-- The canonical form, for addresses from `lo` up. -/
def Memory.wfFrom (lo : Nat) : Memory → Bool
  | [] => true
  | (a, v) :: rest => lo ≤ a && a < 64 && v != Memory.unlisted && Memory.wfFrom (a + 1) rest

/-- The canonical form of BUF. -/
def Memory.wf (m : Memory) : Bool := Memory.wfFrom 0 m

/-- The command word the host offers at a clock edge (45_commands.md R100, R101). -/
inductive Offer where
  /-- cmd_valid = 0. -/
  | quiet
  /-- cmd_valid = 1, and the host keeps the word on the port until it is accepted, as it must (R100). -/
  | hold (cw : CmdWord)
  /-- cmd_valid = 1 at this edge only: not accepted here, the command is withdrawn (R100, R138). -/
  | once (cw : CmdWord)
  deriving DecidableEq, Repr

/-- What the host drives at one clock edge: rst and the command port (R33). -/
structure HostEdge where
  rst : Bool
  offer : Offer
  deriving DecidableEq, Repr

/-- One sticky bit per error kind (92_eei_decisions.md D7). -/
structure Raised where
  usage : Bool
  illegal : Bool
  len : Bool
  deriving DecidableEq, Repr

/-- The state of one core. BUSY, STATUS, FILL and DIGEST_VALID are views of it, computed (Machine/Flags.lean,
Machine/Operands.lean). -/
structure State where
  /-- PHASE (R17). -/
  phase : Phase
  /-- SEQ (R26); BUSY is `SEQ ≠ S_IDLE` (R18). -/
  seq : Seq
  /-- CONT (R26). -/
  cont : Cont
  /-- RND, 7 bits (R26). -/
  rnd : BitVec 7
  /-- ERR_USAGE (R19). -/
  errUsage : Bool
  /-- ERR_ILLEGAL (R19). -/
  errIllegal : Bool
  /-- ERR_LEN (R19). -/
  errLen : Bool
  /-- HS[0..7] (R21). -/
  hs : HashState
  /-- NBYTES, 61 bits (R25). -/
  nbytes : BitVec 61
  /-- BUF[0..63] (R24). -/
  buf : Memory
  /-- W[0..63] (R23). -/
  w : Vector Word 64
  /-- The working registers a..h (R22). -/
  ws : Working
  /-- RSP_VALID (R27). -/
  rspValid : Bool
  /-- RSP_DATA (R27). -/
  rspData : Byte
  /-- What the host drives at the coming edges, the next one first; an empty list drives nothing (R33, R100).
  Log entry 2. -/
  inputs : List HostEdge
  /-- The model's own: how many times a free value was drawn (R13). Log entry 7. -/
  draws : Nat
  /-- The model's own: which errors were ever raised; nothing clears it (92_eei_decisions.md D7). Log entry 8. -/
  raised : Raised
  deriving DecidableEq, Repr

/-- Why the machine stops. -/
inductive Fault where
  /-- Raised by S_ROUND with RND above 63, where no micro-step is enabled (43_compressor.md R90). Safe: no run
  reaches such a state, because S_LOAD sets RND to 0 and round 63 leaves S_ROUND. Log entry 10. -/
  | roundIndexOutOfRange
  deriving DecidableEq, Repr

/-- Why an instruction has no meaning. -/
inductive Refusal where
  /-- Raised by an arm of `exec` that has no meaning yet. Safe. No arm is left so. -/
  | notModelled (mnemonic : String)
  deriving DecidableEq, Repr

/-- What a step or a meaning answers. -/
abbrev Result := Host.Outcome State Fault Refusal

/-- The core right after reset. PHASE, SEQ, the error flags and RSP_VALID are as 70_reset_and_hazards.md R132 says;
it leaves every other register unspecified, and each is given a value by DESIGN CHOICE (log entries 2, 3, 4, 7, 8). -/
def State.reset : State where
  phase := .idle
  seq := .idle
  cont := .absorb
  rnd := 0#7
  errUsage := false
  errIllegal := false
  errLen := false
  hs := Vector.replicate 8 0#32
  nbytes := 0#61
  buf := []
  w := Vector.replicate 64 0#32
  ws := ⟨0#32, 0#32, 0#32, 0#32, 0#32, 0#32, 0#32, 0#32⟩
  rspValid := false
  rspData := 0#8
  inputs := []
  draws := 0
  raised := ⟨false, false, false⟩

end Sys2Proof.Machine
end

