-- ==== Sys2Proof/Machine/Flags.lean ====
section
/-! DEFINITION. BUSY, the error flags and STATUS (10_state.md R18 to R20). -/

namespace Sys2Proof.Machine

/-- BUSY = 1 while SEQ is not S_IDLE (R18). -/
def State.busy (s : State) : Bool :=
  match s.seq with
  | .idle => false
  | .load | .round | .acc => true

/-- The two bits of PHASE (R17). -/
def Phase.code : Phase → BitVec 2
  | .idle => 0#2
  | .absorb => 1#2
  | .done => 2#2
  | .fault => 3#2

/-- DIGEST_VALID = (PHASE = DONE) (R20). -/
def State.digestValid (s : State) : Bool := s.phase == .done

/-- STATUS = `{0, DIGEST_VALID, ERR_LEN, ERR_ILLEGAL, ERR_USAGE, PHASE[1:0], BUSY}` (R20). -/
def State.status (s : State) : Byte :=
  0#1 ++ BitVec.ofBool s.digestValid ++ BitVec.ofBool s.errLen ++ BitVec.ofBool s.errIllegal ++
    BitVec.ofBool s.errUsage ++ s.phase.code ++ BitVec.ofBool s.busy

/-- The sticky flag of an error is set; a flag already 1 stays 1 (R19). -/
def setErrFlag (e : CmdError) (s : State) : State :=
  match e with
  | .usage => { s with errUsage := true }
  | .illegal => { s with errIllegal := true }
  | .len => { s with errLen := true }

/-- The model's record of an error, which nothing clears (92_eei_decisions.md D7). -/
def Raised.record (e : CmdError) (r : Raised) : Raised :=
  match e with
  | .usage => { r with usage := true }
  | .illegal => { r with illegal := true }
  | .len => { r with len := true }

/-- INIT and reset clear the three error flags, and nothing else does (60_exceptions.md R119). -/
def clearErrFlags (s : State) : State :=
  { s with errUsage := false, errIllegal := false, errLen := false }

end Sys2Proof.Machine
end

