-- ==== Sys2Proof/Machine/Operands.lean ====
section
/-! DEFINITION. The values the commands and micro-steps take their operands from: FILL, the length field, big-endian
words and bytes (20_memory.md R36 to R38). BYTE and IDX are taken from DATA by the decoder (Sys2Proof/Decode.lean). -/

namespace Sys2Proof.Machine

/-- FILL = NBYTES[5:0], the message bytes in BUF that are not compressed yet (10_state.md R25). -/
def State.fill (s : State) : Nat := (s.nbytes.extractLsb' 0 6).toNat

/-- The big-endian assembly of the four bytes at i, i+1, i+2, i+3 (00_scope.md R13, 20_memory.md R36). -/
def beWord (b : Nat → Byte) (i : Nat) : Word := b i ++ b (i + 1) ++ b (i + 2) ++ b (i + 3)

/-- The eight bytes of a 64-bit value, the most significant first (R37, 41_padder.md R72). -/
def be64 (v : BitVec 64) : List Byte :=
  [v.extractLsb' 56 8, v.extractLsb' 48 8, v.extractLsb' 40 8, v.extractLsb' 32 8,
    v.extractLsb' 24 8, v.extractLsb' 16 8, v.extractLsb' 8 8, v.extractLsb' 0 8]

/-- LEN64 = `{NBYTES, 000}`, the message bit length (41_padder.md R77). -/
def len64 (nbytes : BitVec 61) : BitVec 64 := nbytes ++ 0#3

/-- Digest(i) = HS[i div 4][31 - 8·(i mod 4) : 24 - 8·(i mod 4)] (44_accumulator_serializer.md R97). -/
def digestByte (hs : HashState) (i : BitVec 5) : Byte :=
  (hs[i.toNat / 4]'(by have := i.isLt; omega)).extractLsb' (24 - 8 * (i.toNat % 4)) 8

/-- The working registers from eight words, in the order a to h (43_compressor.md R89). -/
def Working.ofVector (v : Vector Word 8) : Working :=
  ⟨v[0], v[1], v[2], v[3], v[4], v[5], v[6], v[7]⟩

/-- One of the three values of CONT by its index. -/
def Cont.ofIndex : Fin 3 → Cont
  | 0 => .absorb
  | 1 => .pad2
  | 2 => .done

end Sys2Proof.Machine
end

