-- ==== Sys2Proof/Machine/Ops.lean ====
section
/-! DEFINITION. The operations the commands share: BUF by bytes, acceptance, raising an error, starting a block event
and the reset effect. -/

namespace Sys2Proof.Machine

/-! ### BUF -/

/-- BUF[i]. -/
def Memory.read : Memory → Nat → Byte
  | [], _ => Memory.unlisted
  | (a, v) :: rest, i => if a = i then v else Memory.read rest i

/-- A cell put in front of a memory whose addresses are all above it, unless it holds what an unlisted address
reads as. -/
def Memory.consCell (a : Nat) (v : Byte) (m : Memory) : Memory :=
  if v = Memory.unlisted then m else (a, v) :: m

/-- `MemWrite(BUF, i, 1, v)`, the only write there is (00_scope.md R13, 20_memory.md R35). -/
def Memory.write : Memory → Nat → Byte → Memory
  | [], i, v => Memory.consCell i v []
  | (a, x) :: rest, i, v =>
    if i < a then Memory.consCell i v ((a, x) :: rest)
    else if i = a then Memory.consCell i v rest
    else (a, x) :: Memory.write rest i v

/-- Bytes written one at a time from an index up (R35). -/
def Memory.writeBytes : Memory → Nat → List Byte → Memory
  | m, _, [] => m
  | m, i, v :: vs => Memory.writeBytes (m.write i v) (i + 1) vs

/-! ### Commands -/

/-- A command takes effect only where it is accepted, that is with BUSY = 0; presented while BUSY = 1 it has no
effect (45_commands.md R101). An accepted command sets RSP_VALID to 1 for READ and RDSTAT and to 0 otherwise
(R102). -/
def accept (respond : Bool) (effect : State → State) (s : State) : Result :=
  if s.busy then .next s else .next { effect s with rspValid := respond }

/-- `raise <Error>` (00_scope.md R13, 60_exceptions.md R117): the error's sticky flag is set and the command is
discarded; ERR_LEN also enters FAULT (R116). There is no trap: no state is saved and no control transfer happens
(R112, R122). The return from an error is INIT, which clears the flags (R123). -/
def raise (e : CmdError) (s : State) : State :=
  { setErrFlag e s with
    phase := if e = .len then .fault else s.phase
    raised := s.raised.record e }

/-- RSP_DATA <- ANY(8) (45_commands.md R107): a free value, and the next draw is another one. That it is a function of
the draw count alone is the model's DESIGN CHOICE (log entry 22). -/
def drawRspData (s : State) : State :=
  { s with rspData := Config.anyReadByte s.draws, draws := s.draws + 1 }

/-- `start_block()` (43_compressor.md R88), its caller giving CONT: SEQ <- S_LOAD, so BUSY = 1. -/
def startBlock (c : Cont) (s : State) : State := { s with cont := c, seq := .load }

/-! ### Reset -/

/-- The reset effect (70_reset_and_hazards.md R132): what it leaves unspecified becomes a free value, also when it
cuts a block event short (R134). That each free value is a function of the draw count alone is the model's DESIGN
CHOICE (log entry 22). The host's coming edges and the record of raised errors are not the core's, and stay. -/
def resetEffect (s : State) : State :=
  { s with
    phase := .idle
    seq := .idle
    cont := Cont.ofIndex (Config.anyCont s.draws)
    rnd := Config.anyRnd s.draws
    errUsage := false
    errIllegal := false
    errLen := false
    hs := Config.anyHashState s.draws
    nbytes := Config.anyNbytes s.draws
    buf := Memory.writeBytes [] 0 ((List.range 64).map (Config.anyBufByte s.draws))
    w := Config.anySchedule s.draws
    ws := Working.ofVector (Config.anyWorking s.draws)
    rspValid := false
    rspData := Config.anyResetRspData s.draws
    draws := s.draws + 1 }

end Sys2Proof.Machine
end

