-- ==== Sys2Proof/Machine/Compressor.lean ====
section
/-! DEFINITION. The schedule expander (42_schedule.md) and the compressor (43_compressor.md): the round constants and
the micro-steps S_LOAD and S_ROUND. -/

namespace Sys2Proof.Machine

/-- K[0..63] (43_compressor.md R85), row by row. -/
def kTable : List Word :=
  [0x428a2f98#32, 0x71374491#32, 0xb5c0fbcf#32, 0xe9b5dba5#32, 0x3956c25b#32, 0x59f111f1#32, 0x923f82a4#32, 0xab1c5ed5#32] ++
  [0xd807aa98#32, 0x12835b01#32, 0x243185be#32, 0x550c7dc3#32, 0x72be5d74#32, 0x80deb1fe#32, 0x9bdc06a7#32, 0xc19bf174#32] ++
  [0xe49b69c1#32, 0xefbe4786#32, 0x0fc19dc6#32, 0x240ca1cc#32, 0x2de92c6f#32, 0x4a7484aa#32, 0x5cb0a9dc#32, 0x76f988da#32] ++
  [0x983e5152#32, 0xa831c66d#32, 0xb00327c8#32, 0xbf597fc7#32, 0xc6e00bf3#32, 0xd5a79147#32, 0x06ca6351#32, 0x14292967#32] ++
  [0x27b70a85#32, 0x2e1b2138#32, 0x4d2c6dfc#32, 0x53380d13#32, 0x650a7354#32, 0x766a0abb#32, 0x81c2c92e#32, 0x92722c85#32] ++
  [0xa2bfe8a1#32, 0xa81a664b#32, 0xc24b8b70#32, 0xc76c51a3#32, 0xd192e819#32, 0xd6990624#32, 0xf40e3585#32, 0x106aa070#32] ++
  [0x19a4c116#32, 0x1e376c08#32, 0x2748774c#32, 0x34b0bcb5#32, 0x391c0cb3#32, 0x4ed8aa4a#32, 0x5b9cca4f#32, 0x682e6ff3#32] ++
  [0x748f82ee#32, 0x78a5636f#32, 0x84c87814#32, 0x8cc70208#32, 0x90befffa#32, 0xa4506ceb#32, 0xbef9a3f7#32, 0xc67178f2#32]

/-- K[j], for j in 0..63 (R85). -/
def roundConstant (j : Nat) : Word := kTable.getD j 0#32

/-- The schedule load of S_LOAD: W[0..15] from BUF, W[16..63] not written (42_schedule.md R82). -/
def loadSchedule (buf : Memory) (w : Vector Word 64) : Vector Word 64 :=
  Vector.ofFn fun j : Fin 64 => if j.val < 16 then beWord buf.read (4 * j.val) else w[j]

/-- The schedule expansion of round j: W[j] is written for 16 ≤ j ≤ 63, from words below it (42_schedule.md R83). -/
def expandSchedule (w : Vector Word 64) (j : Nat) (hj : j < 64) : Vector Word 64 :=
  if h : 16 ≤ j then w.set j (w[j - 16] + smallS0 w[j - 15] + w[j - 7] + smallS1 w[j - 2]) else w

/-- One round with round constant `k` and schedule word `wj` (43_compressor.md R90). -/
def Working.round (v : Working) (k wj : Word) : Working :=
  let temp1 := v.h + bigS1 v.e + ch v.e v.f v.g + k + wj
  let temp2 := bigS0 v.a + maj v.a v.b v.c
  { a := temp1 + temp2, b := v.a, c := v.b, d := v.c, e := v.d + temp1, f := v.e, g := v.f, h := v.g }

/-- S_LOAD (R89). -/
def sLoad (s : State) : State :=
  { s with ws := Working.ofVector s.hs, w := loadSchedule s.buf s.w, rnd := 0#7, seq := .round }

/-- S_ROUND of round j (R90): the round reads the W[j] just written. -/
def roundStep (j : Nat) (hj : j < 64) (s : State) : State :=
  let w := expandSchedule s.w j hj
  { s with
    w := w
    ws := s.ws.round (roundConstant j) w[j]
    rnd := BitVec.ofNat 7 (j + 1)
    seq := if j = 63 then .acc else .round }

/-- S_ROUND is enabled with j = RND in 0..63 (R90); no rule covers a larger RND (log entry 10). -/
def sRound (s : State) : Result :=
  if hj : s.rnd.toNat < 64 then .next (roundStep s.rnd.toNat hj s) else .fault .roundIndexOutOfRange

end Sys2Proof.Machine
end

