-- ==== Sys2Proof/Machine/Padder.lean ====
section
/-! DEFINITION. The hardware padder (41_padder.md R76 to R79). -/

namespace Sys2Proof.Machine

/-- Absorb a byte (R76): BUF[FILL] <- BYTE, NBYTES <- NBYTES + 1, and the 64th byte of a block starts a block
event. -/
def absorbByte (byte : Byte) (s : State) : State :=
  let s' := { s with buf := s.buf.write s.fill byte, nbytes := s.nbytes + 1#61 }
  if s.fill = 63 then startBlock .absorb s' else s'

/-- The zero bytes and the length field that end a padded message: BUF[lo..55] <- 0x00, then the length field in
BUF[56..63] (R77). -/
def writeLength (lo : Nat) (buf : Memory) (nbytes : BitVec 61) : Memory :=
  (buf.writeBytes lo (List.replicate (56 - lo) 0x00#8)).writeBytes 56 (be64 (len64 nbytes))

/-- Final padding (R78): the terminator 0x80 at BUF[FILL], then either the zero fill and the length field, or a
zero fill and a second block to come. -/
def finalPad (s : State) : State :=
  let f := s.fill
  let buf := s.buf.write f 0x80#8
  if f ≤ 55 then startBlock .done { s with buf := writeLength (f + 1) buf s.nbytes }
  else startBlock .pad2 { s with buf := buf.writeBytes (f + 1) (List.replicate (63 - f) 0x00#8) }

/-- The second padding block (R79), written by S_ACC with CONT = C_PAD2. -/
def secondPad (s : State) : State :=
  startBlock .done { s with buf := writeLength 0 s.buf s.nbytes }

end Sys2Proof.Machine
end

