-- ==== Sys2Proof/Machine/Accumulator.lean ====
section
/-! DEFINITION. The accumulator (44_accumulator_serializer.md): the IV, the micro-step S_ACC, and the sequencer's next
micro-step. -/

namespace Sys2Proof.Machine

/-- IV[0..7] (R92). -/
def iv : HashState :=
  #v[0x6a09e667#32, 0xbb67ae85#32, 0x3c6ef372#32, 0xa54ff53a#32,
    0x510e527f#32, 0x9b05688c#32, 0x1f83d9ab#32, 0x5be0cd19#32]

/-- The accumulation of S_ACC (R93): eight independent additions modulo 2^32. -/
def accumulate (hs : HashState) (v : Working) : HashState :=
  #v[hs[0] + v.a, hs[1] + v.b, hs[2] + v.c, hs[3] + v.d, hs[4] + v.e, hs[5] + v.f, hs[6] + v.g, hs[7] + v.h]

/-- S_ACC: the accumulation (R93), then the continuation that CONT names (R94). -/
def sAcc (s : State) : State :=
  let s' := { s with hs := accumulate s.hs s.ws }
  match s.cont with
  | .absorb => { s' with seq := .idle }
  | .pad2 => secondPad s'
  | .done => { s' with seq := .idle, phase := .done }

/-- The core agent's next micro-step, by SEQ (43_compressor.md R88); with S_IDLE there is none. -/
def microStep (s : State) : Result :=
  match s.seq with
  | .idle => .next s
  | .load => .next (sLoad s)
  | .round => sRound s
  | .acc => .next (sAcc s)

end Sys2Proof.Machine
end

