-- ==== Sys2Proof/Machine/Commands.lean ====
section
/-! DEFINITION. The meaning of each command (45_commands.md R103 to R109), as of the edge that accepts it. The block
event a command starts is taken by the micro-steps that follow. -/

namespace Sys2Proof.Machine

/-- NOP (R103). -/
def execNop (s : State) : Result := accept false id s

/-- What INIT writes (R104): HS from IV, NBYTES, PHASE and the error flags; BUF, W, a..h, RND and CONT are not
written. -/
def openComputation (s : State) : State :=
  { clearErrFlags s with hs := iv, nbytes := 0#61, phase := .absorb }

/-- INIT (R104). -/
def execInit (s : State) : Result := accept false openComputation s

/-- What UPDATE does with a byte (R105). -/
def updateEffect (byte : Byte) (s : State) : State :=
  if s.phase ≠ .absorb then raise .usage s
  else if s.nbytes = Config.maxMsgBytes then raise .len s
  else absorbByte byte s

/-- UPDATE BYTE (R105). -/
def execUpdate (byte : Byte) (s : State) : Result := accept false (updateEffect byte) s

/-- What FINAL does (R106). -/
def finalEffect (s : State) : State :=
  if s.phase ≠ .absorb then raise .usage s else finalPad s

/-- FINAL (R106). -/
def execFinal (s : State) : Result := accept false finalEffect s

/-- What READ does (R107): the digest byte in DONE, otherwise ERR_USAGE and no value. -/
def readEffect (idx : BitVec 5) (s : State) : State :=
  if s.phase ≠ .done then drawRspData (raise .usage s) else { s with rspData := digestByte s.hs idx }

/-- READ IDX (R107). -/
def execRead (idx : BitVec 5) (s : State) : Result := accept true (readEffect idx) s

/-- RDSTAT (R108): STATUS as it stands before the command takes effect. -/
def execRdstat (s : State) : Result := accept true (fun s => { s with rspData := s.status }) s

/-- A reserved command word (R109, 60_exceptions.md R115): ERR_ILLEGAL in every phase. -/
def reservedWord (s : State) : Result := accept false (raise .illegal) s

/-- OP 110 (R109). -/
def execReserved6 (s : State) : Result := reservedWord s

/-- OP 111 (R109). -/
def execReserved7 (s : State) : Result := reservedWord s

end Sys2Proof.Machine
end

