-- ==== Sys2Proof/Machine/Handshake.lean ====
section
/-! DEFINITION. What happens at a clock edge (45_commands.md R100, R101; 70_reset_and_hazards.md R131), and the output
ports (10_state.md R33). -/

namespace Sys2Proof.Machine

/-! ### Output ports -/

/-- cmd_ready = NOT BUSY AND NOT rst (R33, R101). -/
def State.cmdReady (s : State) (rst : Bool) : Bool := !s.busy && !rst

/-- The digest port (44_accumulator_serializer.md R98): in DONE, HS[0] to HS[7] with HS[0] in the most significant
bits; otherwise the model gives the host no value. -/
def State.digest (s : State) : Option (BitVec 256) :=
  if s.digestValid then
    some (s.hs[0] ++ s.hs[1] ++ s.hs[2] ++ s.hs[3] ++ s.hs[4] ++ s.hs[5] ++ s.hs[6] ++ s.hs[7])
  else none

/-- The output ports of a core (R33). -/
structure Ports where
  cmdReady : Bool
  rspValid : Bool
  rspData : Byte
  status : Byte
  digestValid : Bool
  digest : Option (BitVec 256)
  deriving DecidableEq, Repr

/-- What the ports show in a state, with the rst the host drives (R33). -/
def State.ports (s : State) (rst : Bool) : Ports where
  cmdReady := s.cmdReady rst
  rspValid := s.rspValid
  rspData := s.rspData
  status := s.status
  digestValid := s.digestValid
  digest := s.digest

/-! ### A clock edge -/

/-- The command word on the port, if cmd_valid = 1. -/
def HostEdge.word (e : HostEdge) : Option CmdWord :=
  match e.offer with
  | .quiet => none
  | .hold cw => some cw
  | .once cw => some cw

/-- What the host drives after an edge that did not accept its offer: a held word stays on the port, with rst as the
host next drives it, and any other offer is gone (R100, R131, R138). -/
def HostEdge.unaccepted (e : HostEdge) (rest : List HostEdge) : List HostEdge :=
  match e.offer with
  | .hold cw => ⟨false, .hold cw⟩ :: rest
  | .quiet | .once _ => rest

/-- An edge at which the host drives `e`. Reset wins (R131, 60_exceptions.md R118). While BUSY = 1 nothing is accepted
and the core takes its next micro-step (R88, R101). Otherwise the offered command, if there is one, is accepted. -/
def edgeWith (e : HostEdge) (rest : List HostEdge) (s : State) : Result :=
  if e.rst then .next (resetEffect { s with inputs := e.unaccepted rest })
  else if s.cmdReady e.rst then
    match e.word with
    | none => .next { s with inputs := rest }
    | some cw => exec (decode cw) { s with inputs := rest }
  else microStep { s with inputs := e.unaccepted rest }

/-- The next edge; with nothing more to drive, the host holds rst = 0 and cmd_valid = 0. -/
def clockEdge (s : State) : Result :=
  match s.inputs with
  | [] => microStep s
  | e :: rest => edgeWith e rest s

/-- What a host drives that issues the words of a command program in order, each held until it is accepted (R59,
R100). -/
def issue (words : List CmdWord) : List HostEdge := words.map fun cw => ⟨false, .hold cw⟩

/-- A command word put on the port for the very next edge, with the core ready to accept it. -/
def offerNext (cw : CmdWord) (s : State) : State :=
  { s with seq := .idle, inputs := ⟨false, .hold cw⟩ :: s.inputs }

end Sys2Proof.Machine
end

