-- ==== Sys2Proof/Machine/Step.lean ====
section
/-! DEFINITION. The step of the machine: one clock edge at which something can happen. A step carries no time
(70_reset_and_hazards.md R144; log entry 1). -/

namespace Sys2Proof.Machine

/-- One step. -/
def step (s : State) : Host.Outcome State Fault Refusal := clockEdge s

/-- `s` with a command word, numbered as spec/opcode_table.json numbers it, offered to the core so that the next step
accepts it: the core fetches nothing (10_state.md R30), its commands come from the host's port. A block event that is
running would hold the word, so SEQ is S_IDLE (log entries 2 and 16). -/
def State.withFetchWord (s : State) (nbits w : Nat) : State := offerNext (BitVec.ofNat 11 (w % 2 ^ nbits)) s

end Sys2Proof.Machine
end

