-- ==== Sys2Proof/Machine/Platform.lean ====
section
/-! DEFINITION. A platform of NUM_CORES instances (00_scope.md R9, 60_exceptions.md R128): each has its own complete
state and its own host port, and they share nothing but the constant tables. NUM_CORES is an argument. -/

namespace Sys2Proof.Machine

/-- A step of instance i. The instances share nothing, so the order in which they step is of no effect
(20_memory.md R48). DESIGN CHOICE, log entry 22: instances with equal draw counts draw equal free values, which R13 does
not say. -/
def platformStep {n : Nat} (cores : Vector State n) (i : Fin n) : Host.Outcome (Vector State n) Fault Refusal :=
  match step cores[i] with
  | .next s => .next (cores.set i s)
  | .fault r => .fault r
  | .refused r => .refused r

/-- Every instance right after reset (R128), each with draw count 0; that their free values are then the same is the
model's DESIGN CHOICE (log entry 22). -/
def platformReset (n : Nat) : Vector State n := Vector.replicate n State.reset

end Sys2Proof.Machine
end

