-- ==== Sys2Proof/Machine/Timing.lean ====
section
/-! DEFINITION. The block events of a command (45_commands.md R106) and, for the open parameter T_BLOCK, the clocks
BUSY stays 1 (70_reset_and_hazards.md R144, non-normative). -/

namespace Sys2Proof.Machine

/-- How many block events a command runs when it is accepted (41_padder.md R76, R78). -/
def blockEvents (i : Instr) (s : State) : Nat :=
  match i with
  | .update _ =>
    if s.phase = .absorb ∧ s.nbytes ≠ Config.maxMsgBytes ∧ s.fill = 63 then 1 else 0
  | .final => if s.phase = .absorb then (if s.fill ≤ 55 then 1 else 2) else 0
  | .nop | .init | .read _ | .rdstat | .reserved6 | .reserved7 => 0

/-- The clocks BUSY stays 1 after the command, T_BLOCK for each block event (00_scope.md R9). -/
def busyClocks (tBlock : Nat) (i : Instr) (s : State) : Nat := tBlock * blockEvents i s

end Sys2Proof.Machine
end

