-- ==== Sys2Proof/Machine/Reference.lean ====
section
/-! DEFINITION. The algorithm as the source states it over a whole message, which the core's command stream realises:
padding (41_padder.md R72, R73), the schedule (42_schedule.md R81), compression (43_compressor.md R87), chaining
(44_accumulator_serializer.md R95, R96). A block is given by its bytes, as a function of the index. -/

namespace Sys2Proof.Machine

/-! ### Padding -/

/-- z = (55 - L) mod 64, the number of zero bytes (R72). -/
def padZeros (len : Nat) : Nat := ((55 - (len : Int)) % 64).toNat

/-- `pad(M)` (R72), for a message of at most 2^61 - 1 bytes. R72 calls longer ones out of contract; there this total
function takes the bit length modulo 2^64: DESIGN CHOICE, log entry 23. -/
def pad (msg : List Byte) : List Byte :=
  msg ++ [0x80#8] ++ List.replicate (padZeros msg.length) 0x00#8 ++ be64 (BitVec.ofNat 64 (8 * msg.length))

/-- NB(L) = floor((L + 8) / 64) + 1, the number of blocks (R73). -/
def numBlocks (len : Nat) : Nat := (len + 8) / 64 + 1

/-- Byte i of block_k of `pad(M)` (R72). -/
def padBlock (msg : List Byte) (k i : Nat) : Byte := (pad msg).getD (64 * k + i) 0x00#8

/-! ### Schedule and compression -/

/-- The first 16 + n words of Schedule(B) (R81). -/
def scheduleWords (b : Nat → Byte) : Nat → List Word
  | 0 => (List.range 16).map fun j => beWord b (4 * j)
  | n + 1 =>
    let w := scheduleWords b n
    w ++ [w.getD n 0#32 + smallS0 (w.getD (n + 1) 0#32) + w.getD (n + 9) 0#32 + smallS1 (w.getD (n + 14) 0#32)]

/-- Schedule(B)[j], for j in 0..63 (R81). -/
def scheduleWord (b : Nat → Byte) (j : Nat) : Word := (scheduleWords b 48).getD j 0#32

/-- The working state after the first n rounds of Compress(H, B) (R87). -/
def compressRounds (hs : HashState) (b : Nat → Byte) : Nat → Working
  | 0 => Working.ofVector hs
  | n + 1 => (compressRounds hs b n).round (roundConstant n) (scheduleWord b n)

/-- Compress(H, B) (R87). -/
def compress (hs : HashState) (b : Nat → Byte) : Working := compressRounds hs b 64

/-! ### The hash of a message -/

/-- H_k over the blocks of `pad(M)`: H_0 = IV, and H_(k+1) is H_k with Compress(H_k, block_k) added (R95). -/
def chain (msg : List Byte) : Nat → HashState
  | 0 => iv
  | k + 1 => accumulate (chain msg k) (compress (chain msg k) (padBlock msg k))

/-- The final hash state of a message (R96). -/
def hashOf (msg : List Byte) : HashState := chain msg (numBlocks msg.length)

/-- The 32 digest bytes, Digest(0) first (44_accumulator_serializer.md R97). -/
def digestBytes (hs : HashState) : List Byte := (List.range 32).map fun i => digestByte hs (BitVec.ofNat 5 i)

/-- A hexadecimal digit in upper case. -/
def hexCharacter (n : Nat) : Char := "0123456789ABCDEF".toList.getD n '?'

/-- The rendering of digest bytes as hexadecimal text, two characters per byte (R99). It is the host's, not the core's;
the vectors of 95_test_vectors.md are printed so. -/
def renderBytes (bytes : List Byte) : String :=
  String.ofList (bytes.flatMap fun b => [hexCharacter (b.toNat / 16), hexCharacter (b.toNat % 16)])

end Sys2Proof.Machine
end

