-- ==== Sys2Proof/Safety.lean ====
section
/-! DEFINITION. The terms claims are stated in: the invariants of the core, the progress of a block event, what the
host drives during one, and the end of a run. -/

namespace Sys2Proof.Machine

/-- What holds of the core's control state after every step from a state where it holds. -/
structure State.Inv (s : State) : Prop where
  /-- BUF is in its canonical form. -/
  bufCanonical : s.buf.wf = true
  /-- S_ROUND is enabled: RND is in 0..63 (43_compressor.md R90). -/
  roundIndex : s.seq = .round → s.rnd.toNat < 64
  /-- RND is 64 once all rounds are done (10_state.md R26). -/
  roundsDone : s.seq = .acc → s.rnd = 64#7
  /-- A block event runs only in phase ABSORB (R17, R18). -/
  busyInAbsorb : s.seq ≠ .idle → s.phase = .absorb
  /-- ERR_LEN comes with PHASE = FAULT, and FAULT with ERR_LEN (R19, 60_exceptions.md R116). -/
  lenIffFault : s.errLen = true ↔ s.phase = .fault
  /-- The model's record holds every error whose flag is set (92_eei_decisions.md D7). -/
  raisedUsage : s.errUsage = true → s.raised.usage = true
  raisedIllegal : s.errIllegal = true → s.raised.illegal = true
  raisedLen : s.errLen = true → s.raised.len = true
  /-- A block event of UPDATE ends on a block boundary of the message (41_padder.md R76). -/
  absorbBlock : s.seq ≠ .idle → s.cont = .absorb → s.fill = 0
  /-- Two padding blocks are needed only when the length does not fit (41_padder.md R78). -/
  secondBlock : s.seq ≠ .idle → s.cont = .pad2 → 56 ≤ s.fill

/-- How far the block event that runs has come: its working registers and schedule words are those of
Compress(HS, BUF) after RND rounds (42_schedule.md R84, 43_compressor.md R91). -/
structure State.BlockProgress (s : State) : Prop where
  /-- RND is in 0..63 in S_ROUND. -/
  roundIndex : s.seq = .round → s.rnd.toNat < 64
  /-- In S_ROUND of round RND, the working registers are those after RND rounds. -/
  roundWorking : s.seq = .round → s.ws = compressRounds s.hs s.buf.read s.rnd.toNat
  /-- In S_ROUND of round RND, W[j] is Schedule(BUF)[j] for every j below 16 and every j below RND. -/
  roundSchedule : s.seq = .round →
    ∀ j (hj : j < 64), (j < 16 ∨ j < s.rnd.toNat) → s.w[j] = scheduleWord s.buf.read j
  /-- In S_ACC, the working registers are Compress(HS, BUF). -/
  accWorking : s.seq = .acc → s.ws = compress s.hs s.buf.read
  /-- In S_ACC, W[0..63] is Schedule(BUF). -/
  accSchedule : s.seq = .acc → ∀ j (hj : j < 64), s.w[j] = scheduleWord s.buf.read j

/-- The host applies reset at the coming edge (70_reset_and_hazards.md R131). -/
def resetComing (s : State) : Prop := ∃ e rest, s.inputs = e :: rest ∧ e.rst = true

/-- The coming edge accepts the command word `cw`, and then the host drives `rest` (45_commands.md R101). -/
def accepts (s : State) (cw : CmdWord) (rest : List HostEdge) : Prop :=
  s.seq = .idle ∧ ∃ e, s.inputs = e :: rest ∧ e.rst = false ∧ e.word = some cw

/-- The host applies no reset at the coming edge, and what it drives does not move on while the core is busy: it
drives nothing more, or it holds a command (45_commands.md R100). -/
def hostHolds (inputs : List HostEdge) : Prop :=
  inputs = [] ∨ ∃ cw rest, inputs = ⟨false, .hold cw⟩ :: rest

/-- A run of k steps of the machine, stopping at the first fault or refusal. -/
abbrev runSteps (k : Nat) (s : State) : Result := Sys2Proof.core.run k s

/-- The end of a run of commands: every command was accepted and BUSY = 0 (70_reset_and_hazards.md R145). -/
def State.atEnd (s : State) : Prop := s.inputs = [] ∧ s.busy = false

end Sys2Proof.Machine
end

