-- ==== Sys2Proof/Certificates/Slice0/Obligations.lean ====
section
/-! DEFINITION. The statements about the core, from the numbered rules of spec/. A premise `s.buf.wf = true` is the
canonical form of BUF, which Obligations.StepKeepsControlInvariant says every step keeps. Where a field of the next
state is not given by an equation, the record names it (`buf := t.buf`) and the conjuncts beside it give it. -/

open Sys2Proof Sys2Proof.Machine

/-! ### Encoding -/

/-- Decoding the canonical word of a command gives it back, and that word's ignored bits are 0 (R52 to R56). -/
def Obligations.DecodeOfEncode : Prop :=
  ∀ i : Instr, decode (encode i) = i ∧ encode i &&& ignoredBits i = 0x000#11

/-- R56: every command word selects exactly one row of the opcode map, the one of the command it decodes to. -/
def Obligations.EveryWordSelectsOneRow : Prop :=
  ∀ cw : CmdWord, (opcodeMap.filter fun r => r.selects cw).map (fun r => r.mnemonic) = [(decode cw).mnemonic]

/-- R55: words that differ only in ignored bits decode alike and have identical effects, and a canonical word has zeros
there. -/
def Obligations.IgnoredBitsHaveNoEffect : Prop :=
  (∀ cw cw' : CmdWord, (cw ^^^ cw') &&& ~~~ ignoredBits (decode cw) = 0x000#11 →
    decode cw = decode cw' ∧ ∀ s : State, exec (decode cw) s = exec (decode cw') s) ∧
  ∀ i : Instr, encode i &&& ignoredBits i = 0x000#11

/-- Words of the decode table of 95_test_vectors.md 2.7 decode as it says. -/
def Obligations.SpecWordsDecode : Prop :=
  decode 0x000#11 = .nop ∧ decode 0x0FF#11 = .nop ∧ decode 0x100#11 = .init ∧ decode 0x1AB#11 = .init ∧
  decode 0x261#11 = .update 0x61#8 ∧ decode 0x280#11 = .update 0x80#8 ∧ decode 0x2FF#11 = .update 0xFF#8 ∧
  decode 0x300#11 = .final ∧ decode 0x3FF#11 = .final ∧ decode 0x400#11 = .read 0#5 ∧
  decode 0x41F#11 = .read 31#5 ∧ decode 0x4E5#11 = .read 5#5 ∧ decode 0x4FF#11 = .read 31#5 ∧
  decode 0x500#11 = .rdstat ∧ decode 0x5FF#11 = .rdstat ∧ decode 0x600#11 = .reserved6 ∧
  decode 0x6FF#11 = .reserved6 ∧ decode 0x700#11 = .reserved7 ∧ decode 0x7FF#11 = .reserved7

/-- R59: a line assembles exactly when its operand is in range, and only `.word` emits a reserved word or a word
with an ignored bit set. -/
def Obligations.AssemblerRefusesOutOfRange : Prop :=
  (∀ line : AsmLine, (∃ words, assemble line = .ok words) ↔ line.wellFormed = true) ∧
  (∀ b : Nat, b ≤ 255 → assemble (.update b) = .ok [BitVec.ofNat 11 (0x200 + b)]) ∧
  (∀ i : Nat, i ≤ 31 → assemble (.read i) = .ok [BitVec.ofNat 11 (0x400 + i)]) ∧
  (∀ w : Nat, w ≤ 0x7FF → assemble (.word w) = .ok [BitVec.ofNat 11 w]) ∧
  ∀ (line : AsmLine) (words : List CmdWord), assemble line = .ok words → (∀ w, line ≠ .word w) →
    ∀ cw ∈ words, cw.toNat < 0x600 ∧ cw &&& ignoredBits (decode cw) = 0x000#11

/-- R60: the words of the pseudo-commands. -/
def Obligations.PseudoCommandsExpand : Prop :=
  (∀ bytes : List Byte, assemble (.updates bytes) = .ok (bytes.map fun b => BitVec.ofNat 11 (0x200 + b.toNat))) ∧
  assemble .readAll = .ok ((List.range 32).map fun i => BitVec.ofNat 11 (0x400 + i)) ∧
  ∀ bytes : List Byte, assemble (.hash bytes) = .ok (0x100#11 ::
    (bytes.map (fun b => BitVec.ofNat 11 (0x200 + b.toNat)) ++ 0x300#11 ::
      (List.range 32).map fun i => BitVec.ofNat 11 (0x400 + i)))

/-! ### Word datapath -/

/-- R62: rotr moves bit (i + n) mod 32 to bit i, for every amount from 1 to 31, so no bit is lost. -/
def Obligations.RotateRightMovesBits : Prop :=
  ∀ (x : Word) (n : Nat), 1 ≤ n → n ≤ 31 → ∀ i < 32, (rotr x n).getLsbD i = x.getLsbD ((i + n) % 32)

/-- R63: shr divides by 2^n, for the two amounts the datapath uses. -/
def Obligations.ShiftRightIsLogical : Prop :=
  ∀ (x : Word) (n : Nat), n = 3 ∨ n = 10 → (shr x n).toNat = x.toNat / 2 ^ n

/-- R65, R66, R69, R70: the four mixing functions, bit by bit. -/
def Obligations.MixingFunctionsBitwise : Prop :=
  ∀ (x : Word), ∀ i < 32,
    (bigS0 x).getLsbD i =
      (x.getLsbD ((i + 2) % 32) ^^ x.getLsbD ((i + 13) % 32) ^^ x.getLsbD ((i + 22) % 32)) ∧
    (bigS1 x).getLsbD i =
      (x.getLsbD ((i + 6) % 32) ^^ x.getLsbD ((i + 11) % 32) ^^ x.getLsbD ((i + 25) % 32)) ∧
    (smallS0 x).getLsbD i =
      (x.getLsbD ((i + 7) % 32) ^^ x.getLsbD ((i + 18) % 32) ^^ (decide (i + 3 < 32) && x.getLsbD (i + 3))) ∧
    (smallS1 x).getLsbD i =
      (x.getLsbD ((i + 17) % 32) ^^ x.getLsbD ((i + 19) % 32) ^^ (decide (i + 10 < 32) && x.getLsbD (i + 10)))

/-- R67, R68: ch takes f's bit where e's bit is 1 and g's where it is 0; maj takes the majority of three bits. -/
def Obligations.ChooseAndMajorityBitwise : Prop :=
  ∀ (x y z : Word), ∀ i < 32,
    (ch x y z).getLsbD i = (if x.getLsbD i then y.getLsbD i else z.getLsbD i) ∧
    (maj x y z).getLsbD i =
      decide (2 ≤ (x.getLsbD i).toNat + (y.getLsbD i).toNat + (z.getLsbD i).toNat)

/-- R86: K[j] is floor(cbrt(p_j · 2^96)) - floor(cbrt(p_j)) · 2^32, with p_j the j-th prime from p_0 = 2. The exact
integer cube roots are given by their defining inequalities. -/
def Obligations.RoundConstantsAreCubeRoots : Prop :=
  Nat.nth Nat.Prime 0 = 2 ∧ Nat.nth Nat.Prime 63 = 311 ∧
  ∀ j < 64, ∃ c : Nat, c ^ 3 ≤ Nat.nth Nat.Prime j ∧ Nat.nth Nat.Prime j < (c + 1) ^ 3 ∧
    ((roundConstant j).toNat + c * 2 ^ 32) ^ 3 ≤ Nat.nth Nat.Prime j * 2 ^ 96 ∧
    Nat.nth Nat.Prime j * 2 ^ 96 < ((roundConstant j).toNat + c * 2 ^ 32 + 1) ^ 3

/-! ### BUF -/

/-- Canonical buffers with the same 64 bytes are the same data. The canonical list form of BUF, in which an index that is
not listed reads 0x00, is the model's DESIGN CHOICE (log entry 4); no rule gives it. -/
def Obligations.CanonicalBufDeterminedByBytes : Prop :=
  ∀ m m' : Memory, m.wf = true → m'.wf = true → (∀ j < 64, m.read j = m'.read j) → m = m'

/-! ### Reset -/

/-- At an edge with rst = 1 the core is reset, whatever it was doing and whatever the host offers; nothing is accepted
(R131, R132, R134), and a word the host holds is still offered afterwards (R100, R131). What R132 leaves unspecified is
not constrained. The model's own: that the record of raised errors stays (DESIGN CHOICE, log entry 8), that an offer
which is not held is gone and the host's list moves on (log entries 2 and 15), and that the digest port then has no
value (log entry 13). -/
def Obligations.ResetEdgeWins : Prop :=
  ∀ (s : State) (e : HostEdge) (rest : List HostEdge), s.inputs = e :: rest → e.rst = true →
    s.cmdReady true = false ∧
    ∃ t, step s = .next t ∧ t.phase = .idle ∧ t.seq = .idle ∧ t.errUsage = false ∧ t.errIllegal = false ∧
      t.errLen = false ∧ t.rspValid = false ∧ t.status = 0x00#8 ∧ t.digestValid = false ∧ t.digest = none ∧
      t.cmdReady false = true ∧ t.raised = s.raised ∧
      (∀ cw, e.offer = .hold cw → t.inputs = ⟨false, .hold cw⟩ :: rest) ∧
      ((∀ cw, e.offer ≠ .hold cw) → t.inputs = rest)

/-- R132: what the core shows right after reset. -/
def Obligations.ResetStateShows : Prop :=
  State.reset.phase = .idle ∧ State.reset.seq = .idle ∧ State.reset.errUsage = false ∧
  State.reset.errIllegal = false ∧ State.reset.errLen = false ∧ State.reset.rspValid = false ∧
  State.reset.status = 0x00#8 ∧ State.reset.digestValid = false ∧ State.reset.digest = none ∧
  State.reset.cmdReady false = true

/-! ### Commands -/

/-- R103: NOP ends rsp_valid and changes nothing else. -/
def Obligations.NopChangesNothingElse : Prop :=
  (∀ cw : CmdWord, cw &&& 0x700#11 = 0x000#11 → decode cw = .nop) ∧
  ∀ s : State, s.seq = .idle → exec .nop s = .next { s with rspValid := false }

/-- R104, R92: INIT opens a computation from the IV, in every phase. -/
def Obligations.InitOpensComputation : Prop :=
  (∀ cw : CmdWord, cw &&& 0x700#11 = 0x100#11 → decode cw = .init) ∧
  ∀ s : State, s.seq = .idle →
    exec .init s = .next { s with
      hs := #v[0x6a09e667#32, 0xbb67ae85#32, 0x3c6ef372#32, 0xa54ff53a#32,
        0x510e527f#32, 0x9b05688c#32, 0x1f83d9ab#32, 0x5be0cd19#32]
      nbytes := 0#61, phase := .absorb, errUsage := false, errIllegal := false, errLen := false,
      rspValid := false }

/-- R76, R105: UPDATE raises ERR_USAGE outside ABSORB and ERR_LEN at the limit; otherwise it stores its byte at FILL,
counts it without a wrap, and starts a block event when it is the block's 64th byte. The clauses on `raised` are the
model's own record (DESIGN CHOICE, log entry 8). -/
def Obligations.UpdateCommand : Prop :=
  (∀ cw : CmdWord, cw &&& 0x700#11 = 0x200#11 → decode cw = .update (cw.extractLsb' 0 8)) ∧
  ∀ (s : State) (b : Byte), s.seq = .idle →
    (s.phase ≠ .absorb → exec (.update b) s = .next { s with
      errUsage := true, raised := { s.raised with usage := true }, rspValid := false }) ∧
    (s.phase = .absorb → s.nbytes.toNat = 2 ^ 61 - 1 → exec (.update b) s = .next { s with
      errLen := true, phase := .fault, raised := { s.raised with len := true }, rspValid := false }) ∧
    (s.phase = .absorb → s.nbytes.toNat < 2 ^ 61 - 1 → s.buf.wf = true →
      ∃ t, exec (.update b) s = .next t ∧
        t = { s with
          buf := t.buf, nbytes := t.nbytes, rspValid := false
          seq := if s.nbytes.toNat % 64 = 63 then .load else .idle
          cont := if s.nbytes.toNat % 64 = 63 then .absorb else s.cont } ∧
        t.nbytes.toNat = s.nbytes.toNat + 1 ∧
        ∀ j, t.buf.read j = if j = s.nbytes.toNat % 64 then b else s.buf.read j)

/-- R114, R117: UPDATE and FINAL outside ABSORB, and READ outside DONE, raise ERR_USAGE and do nothing else; the READ
leaves some byte, not stated which, in RSP_DATA. The clauses on `raised` and `draws` are the model's own (DESIGN CHOICE,
log entries 8 and 7). -/
def Obligations.UsageErrors : Prop :=
  (∀ (s : State) (i : Instr), s.seq = .idle → s.phase ≠ .absorb → (i = .final ∨ ∃ b, i = .update b) →
    exec i s = .next { s with
      errUsage := true, raised := { s.raised with usage := true }, rspValid := false }) ∧
  ∀ (s : State) (idx : BitVec 5), s.seq = .idle → s.phase ≠ .done →
    ∃ v : Byte, exec (.read idx) s = .next { s with
      errUsage := true, raised := { s.raised with usage := true }, rspValid := true, rspData := v
      draws := s.draws + 1 }

/-- R116: UPDATE in ABSORB at the limit raises ERR_LEN and enters FAULT; the byte is not written and nothing is counted.
In FAULT, UPDATE, FINAL and READ raise ERR_USAGE and stay there, and only INIT or reset leaves FAULT. The clause on
`raised` is the model's own record (DESIGN CHOICE, log entry 8). -/
def Obligations.LengthError : Prop :=
  (∀ (s : State) (b : Byte), s.seq = .idle → s.phase = .absorb → s.nbytes.toNat = 2 ^ 61 - 1 →
    exec (.update b) s = .next { s with
      errLen := true, phase := .fault, raised := { s.raised with len := true }, rspValid := false }) ∧
  (∀ (s : State) (i : Instr), s.seq = .idle → s.phase = .fault →
    (i = .final ∨ (∃ b, i = .update b) ∨ ∃ idx, i = .read idx) →
    ∃ t, exec i s = .next t ∧ t.errUsage = true ∧ t.phase = .fault) ∧
  ∀ s t : State, s.Inv → s.phase = .fault → step s = .next t → t.phase ≠ .fault →
    resetComing s ∨ ∃ cw rest, accepts s cw rest ∧ decode cw = .init

/-- R77, R78, R106: FINAL raises ERR_USAGE outside ABSORB; in ABSORB it pads BUF and runs one block event, or two where
the length field does not fit, and the core is then in DONE. While they run PHASE reads ABSORB. The clause on `raised` is
the model's own record (DESIGN CHOICE, log entry 8). The 66 micro-steps of a block event are R88's and R94's, each one
step of the model (DEDUCED, log entry 1). Obligations.BusyCoreIgnoresHost carries the run clause to every host that
applies no reset. -/
def Obligations.FinalCommand : Prop :=
  (∀ cw : CmdWord, cw &&& 0x700#11 = 0x300#11 → decode cw = .final) ∧
  (∀ s : State, s.seq = .idle → s.phase ≠ .absorb → exec .final s = .next { s with
      errUsage := true, raised := { s.raised with usage := true }, rspValid := false }) ∧
  ∀ s : State, s.seq = .idle → s.phase = .absorb → s.buf.wf = true →
    ∃ t, exec .final s = .next t ∧
      t = { s with
        buf := t.buf, rspValid := false, seq := .load
        cont := if s.nbytes.toNat % 64 ≤ 55 then .done else .pad2 } ∧
      (∀ j < 64, t.buf.read j =
        if j < s.nbytes.toNat % 64 then s.buf.read j
        else if j = s.nbytes.toNat % 64 then 0x80#8
        else if s.nbytes.toNat % 64 ≤ 55 ∧ 56 ≤ j then BitVec.ofNat 8 (8 * s.nbytes.toNat / 2 ^ (8 * (63 - j)))
        else 0x00#8) ∧
      (hostHolds s.inputs →
        (∀ k < if s.nbytes.toNat % 64 ≤ 55 then 66 else 132,
          ∃ u, runSteps k t = .next u ∧ u.busy = true ∧ u.phase = .absorb) ∧
        ∃ u, runSteps (if s.nbytes.toNat % 64 ≤ 55 then 66 else 132) t = .next u ∧ u.busy = false ∧ u.phase = .done)

/-- R97, R107: READ in DONE answers the digest byte and changes only the response register; in any other phase it raises
ERR_USAGE and answers a byte that is not stated. The clauses on `raised` and `draws` are the model's own (DESIGN CHOICE,
log entries 8 and 7). -/
def Obligations.ReadCommand : Prop :=
  (∀ cw : CmdWord, cw &&& 0x700#11 = 0x400#11 → decode cw = .read (cw.extractLsb' 0 5)) ∧
  ∀ (s : State) (idx : BitVec 5), s.seq = .idle →
    (s.phase = .done → ∃ v : Byte, exec (.read idx) s = .next { s with rspData := v, rspValid := true } ∧
      ∀ (i m : Nat) (hi : i < 8), m < 4 → idx.toNat = 4 * i + m →
        v = BitVec.ofNat 8 (s.hs[i].toNat / 2 ^ (24 - 8 * m))) ∧
    (s.phase ≠ .done → ∃ v : Byte, exec (.read idx) s = .next { s with
      errUsage := true, raised := { s.raised with usage := true }, rspValid := true, rspData := v
      draws := s.draws + 1 })

/-- R108: RDSTAT answers STATUS as it stands, with BUSY = 0, and writes no flag. -/
def Obligations.RdstatReportsStatus : Prop :=
  (∀ cw : CmdWord, cw &&& 0x700#11 = 0x500#11 → decode cw = .rdstat) ∧
  ∀ s : State, s.seq = .idle →
    ∃ v : Byte, exec .rdstat s = .next { s with rspData := v, rspValid := true } ∧ v = s.status ∧
      v.getLsbD 0 = false

/-- R20: the layout of STATUS, whose bit 7 always reads 0. -/
def Obligations.StatusLayout : Prop :=
  ∀ s : State,
    s.status.getLsbD 0 = decide (s.seq ≠ .idle) ∧
    (s.phase = .idle → s.status.extractLsb' 1 2 = 0#2) ∧ (s.phase = .absorb → s.status.extractLsb' 1 2 = 1#2) ∧
    (s.phase = .done → s.status.extractLsb' 1 2 = 2#2) ∧ (s.phase = .fault → s.status.extractLsb' 1 2 = 3#2) ∧
    s.status.getLsbD 3 = s.errUsage ∧ s.status.getLsbD 4 = s.errIllegal ∧ s.status.getLsbD 5 = s.errLen ∧
    s.status.getLsbD 6 = decide (s.phase = .done) ∧ s.status.getLsbD 7 = false

/-- R109, R115: every word with OP 110 or 111 raises ERR_ILLEGAL, in every phase, and has no other effect. The clauses on
`raised` are the model's own record (DESIGN CHOICE, log entry 8). -/
def Obligations.ReservedWordsAreIllegal : Prop :=
  (∀ (s : State) (cw : CmdWord), s.seq = .idle → 0x600 ≤ cw.toNat →
    exec (decode cw) s = .next { s with
      errIllegal := true, raised := { s.raised with illegal := true }, rspValid := false }) ∧
  ∀ (s : State) (i : Instr), s.seq = .idle → (i = .reserved6 ∨ i = .reserved7) →
    exec i s = .next { s with
      errIllegal := true, raised := { s.raised with illegal := true }, rspValid := false }

/-- The frame of the commands that store nothing to BUF: NOP, INIT, READ, RDSTAT and the reserved words. Every byte of
BUF reads as before; W, a..h, RND, CONT, SEQ and the host's coming edges are unchanged; HS, NBYTES and PHASE are
unchanged but by INIT, the error flags but where the command sets its own or INIT clears them, RSP_DATA but by READ
and RDSTAT; the model's draw counter but by READ outside DONE. -/
def Obligations.FrameOfNonStoringCommands : Prop :=
  ∀ (i : Instr) (s t : State), (∀ b, i ≠ .update b) → i ≠ .final → exec i s = .next t →
    (∀ a, t.buf.read a = s.buf.read a) ∧ t.w = s.w ∧ t.ws = s.ws ∧ t.rnd = s.rnd ∧ t.cont = s.cont ∧
    t.seq = s.seq ∧ t.inputs = s.inputs ∧
    (i ≠ .init → t.hs = s.hs ∧ t.nbytes = s.nbytes ∧ t.phase = s.phase ∧ t.errLen = s.errLen) ∧
    (i ≠ .init → (∀ idx, i ≠ .read idx) → t.errUsage = s.errUsage) ∧
    (i ≠ .init → i ≠ .reserved6 → i ≠ .reserved7 → t.errIllegal = s.errIllegal) ∧
    ((∀ idx, i ≠ .read idx) → i ≠ .rdstat → t.rspData = s.rspData) ∧
    ((∀ idx, i ≠ .read idx) ∨ s.phase = .done → t.draws = s.draws)

/-- The frame of the commands that store to BUF. UPDATE stores one byte, at FILL, and only where it absorbs; FINAL
stores from FILL up, and only in ABSORB. Every other byte of BUF reads as before, and HS, W, a..h, RND, RSP_DATA, the
host's coming edges and the draw counter are unchanged; ERR_ILLEGAL too. -/
def Obligations.FrameOfStoringCommands : Prop :=
  (∀ (b : Byte) (s t : State), s.buf.wf = true → exec (.update b) s = .next t →
    (∀ a, (s.seq = .idle → s.phase = .absorb → s.nbytes.toNat ≠ 2 ^ 61 - 1 → a ≠ s.nbytes.toNat % 64) →
      t.buf.read a = s.buf.read a) ∧
    t.hs = s.hs ∧ t.w = s.w ∧ t.ws = s.ws ∧ t.rnd = s.rnd ∧ t.rspData = s.rspData ∧ t.inputs = s.inputs ∧
    t.draws = s.draws ∧ t.errIllegal = s.errIllegal) ∧
  ∀ (s t : State), s.buf.wf = true → exec .final s = .next t →
    (∀ a, (s.seq = .idle → s.phase = .absorb → a < s.nbytes.toNat % 64 ∨ 64 ≤ a) →
      t.buf.read a = s.buf.read a) ∧
    t.hs = s.hs ∧ t.w = s.w ∧ t.ws = s.ws ∧ t.rnd = s.rnd ∧ t.rspData = s.rspData ∧ t.inputs = s.inputs ∧
    t.draws = s.draws ∧ t.errIllegal = s.errIllegal ∧ t.errLen = s.errLen ∧ t.nbytes = s.nbytes ∧
    t.phase = s.phase

/-- R42: NOP, INIT, RDSTAT and the reserved words are idempotent, and READ is in DONE. -/
def Obligations.IdempotentCommands : Prop :=
  ∀ (i : Instr) (s t : State), (∀ b, i ≠ .update b) → i ≠ .final → ((∃ idx, i = .read idx) → s.phase = .done) →
    exec i s = .next t → exec i t = .next t

/-- R27: an accepted command sets RSP_VALID to 1 for READ and RDSTAT and to 0 otherwise, and only those two write
RSP_DATA; a step that accepts nothing and is no reset changes neither; the ports show the register. -/
def Obligations.ResponseRegister : Prop :=
  (∀ (i : Instr) (s t : State), s.seq = .idle → exec i s = .next t →
    (((∃ idx, i = .read idx) ∨ i = .rdstat) → t.rspValid = true) ∧
    ((∀ idx, i ≠ .read idx) → i ≠ .rdstat → t.rspValid = false ∧ t.rspData = s.rspData)) ∧
  (∀ s t : State, step s = .next t → ¬ resetComing s → (∀ cw rest, ¬ accepts s cw rest) →
    t.rspValid = s.rspValid ∧ t.rspData = s.rspData) ∧
  ∀ (s : State) (rst : Bool), (s.ports rst).rspValid = s.rspValid ∧ (s.ports rst).rspData = s.rspData

/-! ### The handshake -/

/-- R101, R102: with BUSY = 0 and rst = 0 the step accepts the offered word and runs the command it decodes to; the
host's next edge follows. The last clause is the model's own: `withFetchWord` offers a word to the very next step. -/
def Obligations.StepRunsDecodedCommand : Prop :=
  (∀ (s : State) (e : HostEdge) (cw : CmdWord) (rest : List HostEdge),
    s.inputs = e :: rest → e.rst = false → (e.offer = .hold cw ∨ e.offer = .once cw) → s.seq = .idle →
    s.cmdReady false = true ∧ step s = exec (decode cw) { s with inputs := rest }) ∧
  ∀ (s : State) (w : Nat), w < 2 ^ 11 →
    step (s.withFetchWord 16 w) = exec (decode (BitVec.ofNat 11 w)) { s with seq := .idle }

/-- R101: while BUSY = 1 an offered command is not accepted and has no effect: the step is the core's own micro-step,
and the held word is still offered after it. Given to `exec` in a busy state, a command has no effect either. -/
def Obligations.CommandHeldWhileBusy : Prop :=
  (∀ (s : State) (cw : CmdWord) (rest : List HostEdge),
    s.inputs = ⟨false, .hold cw⟩ :: rest → s.seq ≠ .idle →
    s.cmdReady false = false ∧ step s = microStep s ∧ ∀ t, step s = .next t → t.inputs = s.inputs) ∧
  ∀ (i : Instr) (s : State), s.seq ≠ .idle → exec i s = .next s

/-- R100, R138: a command withdrawn before it is accepted has no effect: the step is that of an edge with no offer. -/
def Obligations.WithdrawnCommandHasNoEffect : Prop :=
  ∀ (s : State) (cw : CmdWord) (rest : List HostEdge),
    s.inputs = ⟨false, .once cw⟩ :: rest → s.seq ≠ .idle →
    step s = step { s with inputs := ⟨false, .quiet⟩ :: rest }

/-- R130: with BUSY = 0 and no command offered the core holds all its state. -/
def Obligations.QuietCoreHoldsState : Prop :=
  (∀ s : State, s.seq = .idle → s.inputs = [] → step s = .next s) ∧
  ∀ (s : State) (rest : List HostEdge), s.seq = .idle → s.inputs = ⟨false, .quiet⟩ :: rest →
    step s = .next { s with inputs := rest }

/-- R98: in DONE the digest port carries Digest(0) to Digest(31), the first in the most significant byte; otherwise
digest_valid = 0 and the model gives no value. -/
def Obligations.DigestPort : Prop :=
  ∀ s : State,
    (s.phase = .done → s.digestValid = true ∧
      ∃ v : BitVec 256, s.digest = some v ∧
        (∀ i : BitVec 5, v.extractLsb' (248 - 8 * i.toNat) 8 = digestByte s.hs i) ∧
        ∀ (i : Nat) (hi : i < 8), v.extractLsb' (224 - 32 * i) 32 = s.hs[i]) ∧
    (s.phase ≠ .done → s.digestValid = false ∧ s.digest = none)

/-! ### Micro-steps -/

/-- R36, R82, R89: S_LOAD. -/
def Obligations.LoadMicroStep : Prop :=
  ∀ s : State, s.seq = .load → ¬ resetComing s →
    ∃ t, step s = .next t ∧
      t = { s with
        ws := ⟨s.hs[0], s.hs[1], s.hs[2], s.hs[3], s.hs[4], s.hs[5], s.hs[6], s.hs[7]⟩
        w := t.w, rnd := 0#7, seq := .round, inputs := t.inputs } ∧
      (∀ j (hj : j < 16), t.w[j].toNat =
        (s.buf.read (4 * j)).toNat * 2 ^ 24 + (s.buf.read (4 * j + 1)).toNat * 2 ^ 16 +
        (s.buf.read (4 * j + 2)).toNat * 2 ^ 8 + (s.buf.read (4 * j + 3)).toNat) ∧
      ∀ j (hj : j < 64), 16 ≤ j → t.w[j] = s.w[j]

/-- R83, R90: S_ROUND of round j = RND. -/
def Obligations.RoundMicroStep : Prop :=
  ∀ (s : State) (j : Nat) (hj : j < 64), s.seq = .round → s.rnd.toNat = j → ¬ resetComing s →
    ∃ t, step s = .next t ∧
      (∀ h : 16 ≤ j,
        t.w[j] = s.w[j - 16] + smallS0 s.w[j - 15] + s.w[j - 7] + smallS1 s.w[j - 2]) ∧
      (j < 16 → t.w[j] = s.w[j]) ∧ (∀ k (hk : k < 64), k ≠ j → t.w[k] = s.w[k]) ∧
      ∃ temp1 temp2 : Word,
        temp1 = s.ws.h + bigS1 s.ws.e + ch s.ws.e s.ws.f s.ws.g + roundConstant j + t.w[j] ∧
        temp2 = bigS0 s.ws.a + maj s.ws.a s.ws.b s.ws.c ∧
        t = { s with
          w := t.w
          ws := ⟨temp1 + temp2, s.ws.a, s.ws.b, s.ws.c, s.ws.d + temp1, s.ws.e, s.ws.f, s.ws.g⟩
          rnd := t.rnd, seq := if j = 63 then .acc else .round, inputs := t.inputs } ∧
        t.rnd.toNat = j + 1

/-- R79, R93, R94: S_ACC, the accumulation and the continuation that CONT names. -/
def Obligations.AccumulateMicroStep : Prop :=
  ∀ s : State, s.seq = .acc → ¬ resetComing s → s.buf.wf = true →
    ∃ t, step s = .next t ∧
      t.hs = #v[s.hs[0] + s.ws.a, s.hs[1] + s.ws.b, s.hs[2] + s.ws.c, s.hs[3] + s.ws.d,
        s.hs[4] + s.ws.e, s.hs[5] + s.ws.f, s.hs[6] + s.ws.g, s.hs[7] + s.ws.h] ∧
      (s.cont = .absorb → t = { s with hs := t.hs, seq := .idle, inputs := t.inputs }) ∧
      (s.cont = .done → t = { s with hs := t.hs, seq := .idle, phase := .done, inputs := t.inputs }) ∧
      (s.cont = .pad2 →
        t = { s with hs := t.hs, buf := t.buf, seq := .load, cont := .done, inputs := t.inputs } ∧
        ∀ j < 64, t.buf.read j =
          if j < 56 then 0x00#8 else BitVec.ofNat 8 (8 * s.nbytes.toNat / 2 ^ (8 * (63 - j))))

/-- R84, R91: 65 micro-steps from the start of a block event (R88's count, up to S_ACC), S_ACC is reached with
Compress(HS, BUF) in the working registers and Schedule(BUF) in W, and nothing else has changed.
Obligations.BusyCoreIgnoresHost carries it to every host that applies no reset. -/
def Obligations.BlockEventComputesCompress : Prop :=
  ∀ s : State, s.seq = .load → hostHolds s.inputs →
    ∃ t, runSteps 65 s = .next t ∧
      t = { s with ws := compress s.hs s.buf.read, w := t.w, rnd := 64#7, seq := .acc } ∧
      ∀ j (hj : j < 64), t.w[j] = scheduleWord s.buf.read j

/-- R88, R106: a command keeps the core busy for exactly the 66 micro-steps of each block event it starts, each one step
of the model (DEDUCED, log entry 1). Obligations.BusyCoreIgnoresHost carries it to every host that applies no reset. -/
def Obligations.BusyForItsBlockEvents : Prop :=
  ∀ (i : Instr) (s t : State), s.seq = .idle → hostHolds s.inputs → exec i s = .next t →
    (∀ k < 66 * blockEvents i s, ∃ u, runSteps k t = .next u ∧ u.busy = true) ∧
    ∃ u, runSteps (66 * blockEvents i s) t = .next u ∧ u.busy = false

/-- R88: the block events that run end after finitely many micro-steps, at most 132 of them, with the held command
still offered and no error raised: the flags and the model's record of raised errors (DESIGN CHOICE, log entry 8) are as
before. -/
def Obligations.BlockEventsEnd : Prop :=
  ∀ s : State, s.Inv → hostHolds s.inputs →
    ∃ k ≤ 132, ∃ t, runSteps k s = .next t ∧ t.busy = false ∧ t.inputs = s.inputs ∧ t.raised = s.raised ∧
      t.errUsage = s.errUsage ∧ t.errIllegal = s.errIllegal ∧ t.errLen = s.errLen

/-! ### Invariants -/

/-- Every step keeps the control invariant. -/
def Obligations.StepKeepsControlInvariant : Prop :=
  ∀ s t : State, s.Inv → step s = .next t → t.Inv

/-- The control invariant holds right after reset. -/
def Obligations.ResetMeetsControlInvariant : Prop := State.reset.Inv

/-- R120: from a state that meets the invariant a step never stops: the core has no fault of its own. -/
def Obligations.InvariantStateSteps : Prop :=
  ∀ s : State, s.Inv → ∃ t, step s = .next t

/-- R84, R91 as an invariant: every step keeps a running block event on its way to Compress(HS, BUF). -/
def Obligations.StepKeepsBlockProgress : Prop :=
  ∀ s t : State, s.BlockProgress → step s = .next t → t.BlockProgress

/-- The block-event invariant holds right after reset. -/
def Obligations.ResetMeetsBlockProgress : Prop := State.reset.BlockProgress

/-- The model's record of raised errors is never cleared (92_eei_decisions.md D7; the record is the model's own, log
entry 8). -/
def Obligations.RaisedRecordIsKept : Prop :=
  ∀ s t : State, step s = .next t →
    (s.raised.usage = true → t.raised.usage = true) ∧ (s.raised.illegal = true → t.raised.illegal = true) ∧
    (s.raised.len = true → t.raised.len = true)

/-! ### Whole-machine rules -/

/-- R17: the values of PHASE, and the only events that change it. -/
def Obligations.PhaseChangesOnlyAt : Prop :=
  (Phase.idle.code = 0#2 ∧ Phase.absorb.code = 1#2 ∧ Phase.done.code = 2#2 ∧ Phase.fault.code = 3#2) ∧
  ∀ s t : State, step s = .next t → t.phase ≠ s.phase →
    (t.phase = .idle ∧ resetComing s) ∨
    (t.phase = .absorb ∧ ∃ cw rest, accepts s cw rest ∧ decode cw = .init) ∨
    (t.phase = .done ∧ s.seq = .acc ∧ s.cont = .done) ∨
    (t.phase = .fault ∧ s.phase = .absorb ∧ s.nbytes.toNat = 2 ^ 61 - 1 ∧
      ∃ cw rest b, accepts s cw rest ∧ decode cw = .update b)

/-- R21: INIT loads HS from IV, S_ACC adds the working registers into it, and, reset apart, nothing else writes it. -/
def Obligations.HashStateChangesOnlyAt : Prop :=
  ∀ s t : State, step s = .next t → ¬ resetComing s →
    t.hs = s.hs ∨ (t.hs = iv ∧ ∃ cw rest, accepts s cw rest ∧ decode cw = .init) ∨
    (t.hs = accumulate s.hs s.ws ∧ s.seq = .acc)

/-- R25: NBYTES is written by INIT, UPDATE and reset only, and an UPDATE never wraps it; FILL and the bit length are
taken from it. -/
def Obligations.ByteCountNeverWraps : Prop :=
  (∀ s t : State, step s = .next t → ¬ resetComing s →
    t.nbytes = s.nbytes ∨
    (t.nbytes = 0#61 ∧ ∃ cw rest, accepts s cw rest ∧ decode cw = .init) ∨
    (t.nbytes.toNat = s.nbytes.toNat + 1 ∧ s.phase = .absorb ∧
      ∃ cw rest b, accepts s cw rest ∧ decode cw = .update b)) ∧
  ∀ s : State, s.fill = s.nbytes.toNat % 64 ∧ (len64 s.nbytes).toNat = 8 * s.nbytes.toNat

/-- R19, R119: INIT and reset clear the error flags, and nothing else clears one. -/
def Obligations.ErrorFlagsAreSticky : Prop :=
  (∀ s t : State, step s = .next t → ¬ resetComing s → (∀ cw rest, accepts s cw rest → decode cw ≠ .init) →
    (s.errUsage = true → t.errUsage = true) ∧ (s.errIllegal = true → t.errIllegal = true) ∧
    (s.errLen = true → t.errLen = true)) ∧
  ∀ s t : State, step s = .next t → (resetComing s ∨ ∃ cw rest, accepts s cw rest ∧ decode cw = .init) →
    t.errUsage = false ∧ t.errIllegal = false ∧ t.errLen = false

/-- R118: at most one error flag is newly set by one command. -/
def Obligations.AtMostOneErrorPerCommand : Prop :=
  ∀ (i : Instr) (s t : State), exec i s = .next t →
    ¬ (t.errUsage ≠ s.errUsage ∧ t.errUsage = true ∧ t.errIllegal ≠ s.errIllegal ∧ t.errIllegal = true) ∧
    ¬ (t.errUsage ≠ s.errUsage ∧ t.errUsage = true ∧ t.errLen ≠ s.errLen ∧ t.errLen = true) ∧
    ¬ (t.errIllegal ≠ s.errIllegal ∧ t.errIllegal = true ∧ t.errLen ≠ s.errLen ∧ t.errLen = true)

/-! ### The hash of a message -/

/-- R73: the length of the padded message. -/
def Obligations.PadProperties : Prop :=
  (∀ msg : List Byte, (pad msg).length = msg.length + 9 + padZeros msg.length ∧ (pad msg).length % 64 = 0 ∧
    msg.length + 9 ≤ (pad msg).length ∧ (pad msg).length = 64 * numBlocks msg.length) ∧
  numBlocks 55 = 1 ∧ numBlocks 56 = 2

/-- R75, R95: after INIT and one UPDATE per byte of a message, every complete block has been compressed and
accumulated, and BUF holds the bytes of the block that is not complete. The step count is the model's (DEDUCED, log
entry 1), and that no error was raised is said by the model's record (DESIGN CHOICE, log entry 8).
Obligations.GapsBetweenCommands carries it to a host that pauses between commands. -/
def Obligations.UpdatesCompressEagerly : Prop :=
  ∀ (s : State) (msg : List Byte), s.seq = .idle → s.buf.wf = true → msg.length < 2 ^ 61 →
    s.inputs = issue (encode .init :: updatesWords msg) →
    ∃ t, runSteps (1 + msg.length + 66 * (msg.length / 64)) s = .next t ∧ t.atEnd ∧
      t.phase = .absorb ∧ t.nbytes.toNat = msg.length ∧ t.hs = chain msg (msg.length / 64) ∧
      t.raised = s.raised ∧ ∀ j < msg.length % 64, t.buf.read j = msg.getD (64 * (msg.length / 64) + j) 0x00#8

/-- R111: the command stream INIT, one UPDATE per byte, FINAL, READ 0 to READ 31 hashes the message. From any state that
meets the invariant, with a block event running or not, and for any message within the limit, it raises no error, ends
in DONE with HS the final hash state over the padded message, and its 32 responses are the digest bytes, which depend on
the message alone. The k steps at the start are those of the block events already running, which hold the INIT. The step
counts are the model's (DEDUCED, log entry 1), and that no error was raised is said by its record (DESIGN CHOICE, log
entry 8). Obligations.GapsBetweenCommands carries it to a host that pauses between commands. -/
def Obligations.HashCommandStream : Prop :=
  ∀ (s : State) (msg : List Byte), s.Inv → msg.length < 2 ^ 61 → s.inputs = issue (absorbWords msg ++ readAllWords) →
    ∃ k ≤ 132, (s.seq = .idle → k = 0) ∧
      (∀ i : BitVec 5, ∃ t,
        runSteps (k + (msg.length + 66 * numBlocks msg.length + 3 + i.toNat)) s = .next t ∧
        t.rspValid = true ∧ t.rspData = digestByte (hashOf msg) i) ∧
      ∃ t, runSteps (k + (msg.length + 66 * numBlocks msg.length + 34)) s = .next t ∧ t.atEnd ∧
        t.phase = .done ∧ t.hs = hashOf msg ∧ t.nbytes.toNat = msg.length ∧ t.status = 0x44#8 ∧
        t.raised = s.raised

/-! ### Platform -/

/-- R48, R128: a step of one instance leaves every other instance as it was, and steps of two instances may be taken
in either order. That a platform is a vector of states in which one instance steps at a time is the model's (DEDUCED,
log entry 11). -/
def Obligations.InstancesShareNothing : Prop :=
  (∀ (n : Nat) (cores after : Vector State n) (i : Fin n), platformStep cores i = .next after →
    step cores[i] = .next after[i] ∧ ∀ j : Fin n, j ≠ i → after[j] = cores[j]) ∧
  ∀ (n : Nat) (cores p q : Vector State n) (i j : Fin n), i ≠ j →
    platformStep cores i = .next p → platformStep p j = .next q →
    ∃ p', platformStep cores j = .next p' ∧ platformStep p' i = .next q

/-! ### Every host -/

/-- While the core is busy nothing the host drives but reset reaches it (R41, R88, R101): a run that is busy until its
last step is the same run, host edges apart, whatever commands the host holds, withdraws or does not offer. That such an
edge is taken together with one micro-step is the model's (DEDUCED, log entries 1 and 15). -/
def Obligations.BusyCoreIgnoresHost : Prop :=
  ∀ (k : Nat) (s t : State),
    (∀ m < k, ∃ u, runSteps m { s with inputs := [] } = .next u ∧ u.busy = true) →
    runSteps k { s with inputs := [] } = .next t → (∀ e ∈ s.inputs.take k, e.rst = false) →
    ∃ rest, runSteps k s = .next { t with inputs := rest }

/-- A host that pauses between commands: pauses before, between and after held commands delay the run and change
nothing else (R100, R130). What the run without pauses reaches after k steps, the run with pauses reaches after k steps
and at most as many more as the host has edges; RSP_DATA is left open where a free value was drawn, since two runs need
not draw the same (log entry 22). The list of host edges is the model's (DESIGN CHOICE, log entry 2). -/
def Obligations.GapsBetweenCommands : Prop :=
  ∀ (k : Nat) (s t : State) (words : List CmdWord) (edges : List HostEdge),
    (edges.filter fun e => e != ⟨false, .quiet⟩) = issue words →
    runSteps k { s with inputs := issue words } = .next t →
    ∃ (n : Nat) (later : List HostEdge) (v : Byte), k ≤ n ∧ n ≤ k + edges.length ∧
      runSteps n { s with inputs := edges } = .next { t with inputs := later, rspData := v } ∧
      (t.draws = s.draws → v = t.rspData) ∧
      (later.filter fun e => e != ⟨false, .quiet⟩) = t.inputs
end

