-- ==== Sys2Proof/Laws/Decode.lean ====
section
/-! SUPPORT. The fields of a command word and the rows of the decoder. -/

namespace Sys2Proof

@[simp] theorem opField_commandWord (op : BitVec 3) (data : Byte) : opField (commandWord op data) = op := by
  apply BitVec.eq_of_getLsbD_eq
  intro i hi
  simp only [opField, commandWord, BitVec.getLsbD_extractLsb', BitVec.getLsbD_append]
  simp [hi]

@[simp] theorem dataField_commandWord (op : BitVec 3) (data : Byte) : dataField (commandWord op data) = data := by
  apply BitVec.eq_of_getLsbD_eq
  intro i hi
  simp only [dataField, commandWord, BitVec.getLsbD_extractLsb', BitVec.getLsbD_append]
  simp [hi]

/-- A word is the two fields it is made of. -/
theorem commandWord_fields (cw : CmdWord) : commandWord (opField cw) (dataField cw) = cw := by
  apply BitVec.eq_of_getLsbD_eq
  intro i hi
  simp only [opField, dataField, commandWord, BitVec.getLsbD_append, BitVec.getLsbD_extractLsb']
  by_cases h : i < 8
  · simp [h]
  · have : 8 + (i - 8) = i := by omega
    have h2 : i - 8 < 3 := by omega
    simp [h, h2, this]

theorem idxOperand_zeroExtended (idx : BitVec 5) : idxOperand (0b000#3 ++ idx) = idx := by
  revert idx
  decide

/-- OP is one of eight values. -/
theorem op_cases (op : BitVec 3) :
    op = 0#3 ∨ op = 1#3 ∨ op = 2#3 ∨ op = 3#3 ∨ op = 4#3 ∨ op = 5#3 ∨ op = 6#3 ∨ op = 7#3 := by
  revert op
  decide

@[simp] theorem decodeFields_nop (data : Byte) : decodeFields 0#3 data = .nop := rfl
@[simp] theorem decodeFields_init (data : Byte) : decodeFields 1#3 data = .init := rfl
@[simp] theorem decodeFields_update (data : Byte) : decodeFields 2#3 data = .update data := rfl
@[simp] theorem decodeFields_final (data : Byte) : decodeFields 3#3 data = .final := rfl
@[simp] theorem decodeFields_read (data : Byte) : decodeFields 4#3 data = .read (idxOperand data) := rfl
@[simp] theorem decodeFields_rdstat (data : Byte) : decodeFields 5#3 data = .rdstat := rfl
@[simp] theorem decodeFields_reserved6 (data : Byte) : decodeFields 6#3 data = .reserved6 := rfl
@[simp] theorem decodeFields_reserved7 (data : Byte) : decodeFields 7#3 data = .reserved7 := rfl

end Sys2Proof
end

