-- ==== Sys2Proof/Laws/Memory.lean ====
section
/-! SUPPORT. The laws of BUF: a read after a write, and the canonical form every operation keeps. -/

namespace Sys2Proof.Machine

@[simp] theorem Memory.read_nil (i : Nat) : Memory.read [] i = unlisted := rfl

theorem Memory.read_cons (a : Nat) (v : Byte) (m : Memory) (i : Nat) :
    Memory.read ((a, v) :: m) i = if a = i then v else Memory.read m i := rfl

theorem Memory.wfFrom_cons {lo a : Nat} {v : Byte} {m : Memory} :
    wfFrom lo ((a, v) :: m) = true ↔ lo ≤ a ∧ a < 64 ∧ v ≠ unlisted ∧ wfFrom (a + 1) m = true := by
  simp [wfFrom, and_assoc]

theorem Memory.wfFrom_mono {lo lo' : Nat} (h : lo' ≤ lo) {m : Memory} (hm : wfFrom lo m = true) :
    wfFrom lo' m = true := by
  cases m with
  | nil => rfl
  | cons c m =>
    obtain ⟨a, v⟩ := c
    rw [wfFrom_cons] at hm ⊢
    exact ⟨by omega, hm.2⟩

/-- Below the first address a canonical memory lists nothing. -/
theorem Memory.read_below {lo : Nat} {m : Memory} (hm : wfFrom lo m = true) {i : Nat} (hi : i < lo) :
    m.read i = unlisted := by
  induction m generalizing lo with
  | nil => rfl
  | cons c m ih =>
    obtain ⟨a, v⟩ := c
    rw [wfFrom_cons] at hm
    rw [read_cons, if_neg (by omega)]
    exact ih hm.2.2.2 (by omega)

theorem Memory.read_consCell {m : Memory} {a : Nat} (hm : wfFrom (a + 1) m = true) (v : Byte) (i : Nat) :
    (consCell a v m).read i = if a = i then v else m.read i := by
  unfold consCell
  split
  · subst v
    split
    · exact read_below hm (by omega)
    · rfl
  · rfl

theorem Memory.wfFrom_consCell {lo a : Nat} {v : Byte} {m : Memory} (hlo : lo ≤ a) (ha : a < 64)
    (hm : wfFrom (a + 1) m = true) : wfFrom lo (consCell a v m) = true := by
  unfold consCell
  split
  · exact wfFrom_mono (by omega) hm
  · rw [wfFrom_cons]; exact ⟨hlo, ha, ‹_›, hm⟩

/-- What a write can do, on canonical memories: the byte written reads back and every other byte is as before. -/
theorem Memory.read_write_from {lo : Nat} {m : Memory} (hm : wfFrom lo m = true) (i : Nat) (v : Byte) (j : Nat) :
    (m.write i v).read j = if i = j then v else m.read j := by
  induction m generalizing lo with
  | nil =>
    show (consCell i v []).read j = _
    rw [read_consCell rfl]
  | cons c m ih =>
    obtain ⟨a, x⟩ := c
    have hm' := hm
    rw [wfFrom_cons] at hm'
    obtain ⟨-, ha, hx, hrest⟩ := hm'
    unfold write
    split
    · refine read_consCell ?_ v j
      rw [wfFrom_cons]
      exact ⟨by omega, ha, hx, hrest⟩
    · split
      · subst i
        rw [read_consCell hrest, read_cons]
        split <;> rfl
      · rw [read_cons, read_cons, ih hrest]
        split
        · rw [if_neg (by omega)]
        · rfl

theorem Memory.wfFrom_write {lo : Nat} {m : Memory} (hm : wfFrom lo m = true) {i : Nat} (hlo : lo ≤ i) (hi : i < 64)
    (v : Byte) : wfFrom lo (m.write i v) = true := by
  induction m generalizing lo with
  | nil => exact wfFrom_consCell hlo hi rfl
  | cons c m ih =>
    obtain ⟨a, x⟩ := c
    have hm' := hm
    rw [wfFrom_cons] at hm'
    obtain ⟨hla, ha, hx, hrest⟩ := hm'
    unfold write
    split
    · refine wfFrom_consCell hlo hi ?_
      rw [wfFrom_cons]
      exact ⟨by omega, ha, hx, hrest⟩
    · split
      · subst i; exact wfFrom_consCell hlo hi hrest
      · rw [wfFrom_cons]
        exact ⟨hla, ha, hx, ih hrest (by omega)⟩

/-- The write law of BUF. -/
theorem Memory.read_write {m : Memory} (hm : m.wf = true) (i : Nat) (v : Byte) (j : Nat) :
    (m.write i v).read j = if i = j then v else m.read j := read_write_from hm i v j

/-- A write to one of the 64 bytes keeps the canonical form. -/
theorem Memory.wf_write {m : Memory} (hm : m.wf = true) {i : Nat} (hi : i < 64) (v : Byte) :
    (m.write i v).wf = true := wfFrom_write hm (Nat.zero_le i) hi v

/-- Bytes written one after the other keep the canonical form. -/
theorem Memory.wf_writeBytes {m : Memory} (hm : m.wf = true) {i : Nat} {vs : List Byte} (hi : i + vs.length ≤ 64) :
    (m.writeBytes i vs).wf = true := by
  induction vs generalizing m i with
  | nil => exact hm
  | cons v vs ih =>
    rw [List.length_cons] at hi
    exact ih (wf_write hm (by omega) v) (by omega)

/-- What bytes written one after the other read as. -/
theorem Memory.read_writeBytes {m : Memory} (hm : m.wf = true) {i : Nat} {vs : List Byte} (hi : i + vs.length ≤ 64)
    (j : Nat) :
    (m.writeBytes i vs).read j = if i ≤ j ∧ j < i + vs.length then vs.getD (j - i) unlisted else m.read j := by
  induction vs generalizing m i with
  | nil => rw [if_neg (by simp)]; rfl
  | cons v vs ih =>
    rw [List.length_cons] at hi
    show ((m.write i v).writeBytes (i + 1) vs).read j = _
    rw [ih (wf_write hm (by omega) v) (by omega), read_write hm, List.length_cons]
    by_cases hij : i = j
    · subst hij
      rw [if_neg (by omega), if_pos rfl, if_pos (by omega), Nat.sub_self]
      rfl
    · rw [if_neg hij]
      by_cases hin : i + 1 ≤ j ∧ j < i + 1 + vs.length
      · rw [if_pos hin, if_pos (by omega), show j - i = (j - (i + 1)) + 1 by omega]
        rfl
      · rw [if_neg hin, if_neg (by omega)]

@[simp] theorem Memory.wf_nil : Memory.wf [] = true := rfl

/-- A canonical memory reads as unlisted from index 64 up. -/
theorem Memory.read_above {lo : Nat} {m : Memory} (hm : wfFrom lo m = true) {i : Nat} (hi : 64 ≤ i) :
    m.read i = unlisted := by
  induction m generalizing lo with
  | nil => rfl
  | cons c m ih =>
    obtain ⟨a, v⟩ := c
    rw [wfFrom_cons] at hm
    rw [read_cons, if_neg (by omega)]
    exact ih hm.2.2.2

/-! ### The padder's writes -/

@[simp] theorem be64_length (v : BitVec 64) : (be64 v).length = 8 := rfl

theorem State.fill_lt (s : State) : s.fill < 64 := by
  have := (s.nbytes.extractLsb' 0 6).isLt
  exact this

/-- FILL is NBYTES mod 64 (R25). -/
theorem State.fill_eq (s : State) : s.fill = s.nbytes.toNat % 64 := by
  simp [State.fill, BitVec.extractLsb'_toNat]

/-- What the end of the padding reads as: zeros from `lo` to 55, then the length field. -/
theorem read_writeLength {buf : Memory} (hb : buf.wf = true) {lo : Nat} (hlo : lo ≤ 56) (nbytes : BitVec 61)
    (j : Nat) (hj : j < 64) :
    (writeLength lo buf nbytes).read j =
      if 56 ≤ j then (be64 (len64 nbytes)).getD (j - 56) 0#8 else if lo ≤ j then 0#8 else buf.read j := by
  unfold writeLength
  have hlen : lo + (List.replicate (56 - lo) 0x00#8).length ≤ 64 := by simp; omega
  rw [Memory.read_writeBytes (Memory.wf_writeBytes hb hlen) (by simp), Memory.read_writeBytes hb hlen]
  simp only [be64_length, List.length_replicate]
  by_cases h : 56 ≤ j
  · rw [if_pos (by omega), if_pos h]
  · rw [if_neg (by omega), if_neg h]
    by_cases h2 : lo ≤ j
    · rw [if_pos (by omega), if_pos h2]
      rw [List.getD_eq_getElem _ _ (by simp; omega), List.getElem_replicate]
    · rw [if_neg (by omega), if_neg h2]

/-- The end of the padding keeps the canonical form. -/
theorem wf_writeLength {buf : Memory} (hb : buf.wf = true) {lo : Nat} (hlo : lo ≤ 56) (nbytes : BitVec 61) :
    (writeLength lo buf nbytes).wf = true :=
  Memory.wf_writeBytes (Memory.wf_writeBytes hb (by simp; omega)) (by simp)

end Sys2Proof.Machine
end

