-- ==== Sys2Proof/Laws/State.lean ====
section
/-! SUPPORT. One lemma per field per update of State by a shared operation. -/

namespace Sys2Proof.Machine

/-! ### Raising an error -/

@[simp] theorem raise_seq (e : CmdError) (s : State) : (raise e s).seq = s.seq := by cases e <;> rfl
@[simp] theorem raise_cont (e : CmdError) (s : State) : (raise e s).cont = s.cont := by cases e <;> rfl
@[simp] theorem raise_rnd (e : CmdError) (s : State) : (raise e s).rnd = s.rnd := by cases e <;> rfl
@[simp] theorem raise_hs (e : CmdError) (s : State) : (raise e s).hs = s.hs := by cases e <;> rfl
@[simp] theorem raise_nbytes (e : CmdError) (s : State) : (raise e s).nbytes = s.nbytes := by cases e <;> rfl
@[simp] theorem raise_buf (e : CmdError) (s : State) : (raise e s).buf = s.buf := by cases e <;> rfl
@[simp] theorem raise_w (e : CmdError) (s : State) : (raise e s).w = s.w := by cases e <;> rfl
@[simp] theorem raise_ws (e : CmdError) (s : State) : (raise e s).ws = s.ws := by cases e <;> rfl
@[simp] theorem raise_rspValid (e : CmdError) (s : State) : (raise e s).rspValid = s.rspValid := by cases e <;> rfl
@[simp] theorem raise_rspData (e : CmdError) (s : State) : (raise e s).rspData = s.rspData := by cases e <;> rfl
@[simp] theorem raise_inputs (e : CmdError) (s : State) : (raise e s).inputs = s.inputs := by cases e <;> rfl
@[simp] theorem raise_draws (e : CmdError) (s : State) : (raise e s).draws = s.draws := by cases e <;> rfl
@[simp] theorem raise_phase (e : CmdError) (s : State) :
    (raise e s).phase = if e = .len then .fault else s.phase := rfl
@[simp] theorem raise_raised (e : CmdError) (s : State) : (raise e s).raised = s.raised.record e := rfl
@[simp] theorem raise_errUsage (e : CmdError) (s : State) :
    (raise e s).errUsage = (e == .usage || s.errUsage) := by cases e <;> rfl
@[simp] theorem raise_errIllegal (e : CmdError) (s : State) :
    (raise e s).errIllegal = (e == .illegal || s.errIllegal) := by cases e <;> rfl
@[simp] theorem raise_errLen (e : CmdError) (s : State) :
    (raise e s).errLen = (e == .len || s.errLen) := by cases e <;> rfl

/-! ### A free RSP_DATA -/

@[simp] theorem drawRspData_phase (s : State) : (drawRspData s).phase = s.phase := rfl
@[simp] theorem drawRspData_seq (s : State) : (drawRspData s).seq = s.seq := rfl
@[simp] theorem drawRspData_cont (s : State) : (drawRspData s).cont = s.cont := rfl
@[simp] theorem drawRspData_rnd (s : State) : (drawRspData s).rnd = s.rnd := rfl
@[simp] theorem drawRspData_errUsage (s : State) : (drawRspData s).errUsage = s.errUsage := rfl
@[simp] theorem drawRspData_errIllegal (s : State) : (drawRspData s).errIllegal = s.errIllegal := rfl
@[simp] theorem drawRspData_errLen (s : State) : (drawRspData s).errLen = s.errLen := rfl
@[simp] theorem drawRspData_hs (s : State) : (drawRspData s).hs = s.hs := rfl
@[simp] theorem drawRspData_nbytes (s : State) : (drawRspData s).nbytes = s.nbytes := rfl
@[simp] theorem drawRspData_buf (s : State) : (drawRspData s).buf = s.buf := rfl
@[simp] theorem drawRspData_w (s : State) : (drawRspData s).w = s.w := rfl
@[simp] theorem drawRspData_ws (s : State) : (drawRspData s).ws = s.ws := rfl
@[simp] theorem drawRspData_rspValid (s : State) : (drawRspData s).rspValid = s.rspValid := rfl
@[simp] theorem drawRspData_inputs (s : State) : (drawRspData s).inputs = s.inputs := rfl
@[simp] theorem drawRspData_raised (s : State) : (drawRspData s).raised = s.raised := rfl
@[simp] theorem drawRspData_draws (s : State) : (drawRspData s).draws = s.draws + 1 := rfl

/-! ### Starting a block event -/

@[simp] theorem startBlock_phase (c : Cont) (s : State) : (startBlock c s).phase = s.phase := rfl
@[simp] theorem startBlock_rnd (c : Cont) (s : State) : (startBlock c s).rnd = s.rnd := rfl
@[simp] theorem startBlock_errUsage (c : Cont) (s : State) : (startBlock c s).errUsage = s.errUsage := rfl
@[simp] theorem startBlock_errIllegal (c : Cont) (s : State) : (startBlock c s).errIllegal = s.errIllegal := rfl
@[simp] theorem startBlock_errLen (c : Cont) (s : State) : (startBlock c s).errLen = s.errLen := rfl
@[simp] theorem startBlock_hs (c : Cont) (s : State) : (startBlock c s).hs = s.hs := rfl
@[simp] theorem startBlock_nbytes (c : Cont) (s : State) : (startBlock c s).nbytes = s.nbytes := rfl
@[simp] theorem startBlock_buf (c : Cont) (s : State) : (startBlock c s).buf = s.buf := rfl
@[simp] theorem startBlock_w (c : Cont) (s : State) : (startBlock c s).w = s.w := rfl
@[simp] theorem startBlock_ws (c : Cont) (s : State) : (startBlock c s).ws = s.ws := rfl
@[simp] theorem startBlock_rspValid (c : Cont) (s : State) : (startBlock c s).rspValid = s.rspValid := rfl
@[simp] theorem startBlock_rspData (c : Cont) (s : State) : (startBlock c s).rspData = s.rspData := rfl
@[simp] theorem startBlock_inputs (c : Cont) (s : State) : (startBlock c s).inputs = s.inputs := rfl
@[simp] theorem startBlock_draws (c : Cont) (s : State) : (startBlock c s).draws = s.draws := rfl
@[simp] theorem startBlock_raised (c : Cont) (s : State) : (startBlock c s).raised = s.raised := rfl
@[simp] theorem startBlock_cont (c : Cont) (s : State) : (startBlock c s).cont = c := rfl
@[simp] theorem startBlock_seq (c : Cont) (s : State) : (startBlock c s).seq = .load := rfl

/-! ### INIT -/

@[simp] theorem openComputation_seq (s : State) : (openComputation s).seq = s.seq := rfl
@[simp] theorem openComputation_cont (s : State) : (openComputation s).cont = s.cont := rfl
@[simp] theorem openComputation_rnd (s : State) : (openComputation s).rnd = s.rnd := rfl
@[simp] theorem openComputation_buf (s : State) : (openComputation s).buf = s.buf := rfl
@[simp] theorem openComputation_w (s : State) : (openComputation s).w = s.w := rfl
@[simp] theorem openComputation_ws (s : State) : (openComputation s).ws = s.ws := rfl
@[simp] theorem openComputation_rspValid (s : State) : (openComputation s).rspValid = s.rspValid := rfl
@[simp] theorem openComputation_rspData (s : State) : (openComputation s).rspData = s.rspData := rfl
@[simp] theorem openComputation_inputs (s : State) : (openComputation s).inputs = s.inputs := rfl
@[simp] theorem openComputation_draws (s : State) : (openComputation s).draws = s.draws := rfl
@[simp] theorem openComputation_raised (s : State) : (openComputation s).raised = s.raised := rfl
@[simp] theorem openComputation_hs (s : State) : (openComputation s).hs = iv := rfl
@[simp] theorem openComputation_nbytes (s : State) : (openComputation s).nbytes = 0#61 := rfl
@[simp] theorem openComputation_phase (s : State) : (openComputation s).phase = .absorb := rfl
@[simp] theorem openComputation_errUsage (s : State) : (openComputation s).errUsage = false := rfl
@[simp] theorem openComputation_errIllegal (s : State) : (openComputation s).errIllegal = false := rfl
@[simp] theorem openComputation_errLen (s : State) : (openComputation s).errLen = false := rfl

/-! ### Reset -/

@[simp] theorem resetEffect_inputs (s : State) : (resetEffect s).inputs = s.inputs := rfl
@[simp] theorem resetEffect_raised (s : State) : (resetEffect s).raised = s.raised := rfl
@[simp] theorem resetEffect_phase (s : State) : (resetEffect s).phase = .idle := rfl
@[simp] theorem resetEffect_seq (s : State) : (resetEffect s).seq = .idle := rfl
@[simp] theorem resetEffect_rspValid (s : State) : (resetEffect s).rspValid = false := rfl
@[simp] theorem resetEffect_draws (s : State) : (resetEffect s).draws = s.draws + 1 := rfl
@[simp] theorem resetEffect_errUsage (s : State) : (resetEffect s).errUsage = false := rfl
@[simp] theorem resetEffect_errIllegal (s : State) : (resetEffect s).errIllegal = false := rfl
@[simp] theorem resetEffect_errLen (s : State) : (resetEffect s).errLen = false := rfl

/-! ### Absorbing a byte -/

@[simp] theorem absorbByte_phase (byte : Byte) (s : State) : (absorbByte byte s).phase = s.phase := by unfold absorbByte; dsimp only; split <;> rfl
@[simp] theorem absorbByte_rnd (byte : Byte) (s : State) : (absorbByte byte s).rnd = s.rnd := by unfold absorbByte; dsimp only; split <;> rfl
@[simp] theorem absorbByte_errUsage (byte : Byte) (s : State) : (absorbByte byte s).errUsage = s.errUsage := by unfold absorbByte; dsimp only; split <;> rfl
@[simp] theorem absorbByte_errIllegal (byte : Byte) (s : State) : (absorbByte byte s).errIllegal = s.errIllegal := by unfold absorbByte; dsimp only; split <;> rfl
@[simp] theorem absorbByte_errLen (byte : Byte) (s : State) : (absorbByte byte s).errLen = s.errLen := by unfold absorbByte; dsimp only; split <;> rfl
@[simp] theorem absorbByte_hs (byte : Byte) (s : State) : (absorbByte byte s).hs = s.hs := by unfold absorbByte; dsimp only; split <;> rfl
@[simp] theorem absorbByte_w (byte : Byte) (s : State) : (absorbByte byte s).w = s.w := by unfold absorbByte; dsimp only; split <;> rfl
@[simp] theorem absorbByte_ws (byte : Byte) (s : State) : (absorbByte byte s).ws = s.ws := by unfold absorbByte; dsimp only; split <;> rfl
@[simp] theorem absorbByte_rspValid (byte : Byte) (s : State) : (absorbByte byte s).rspValid = s.rspValid := by unfold absorbByte; dsimp only; split <;> rfl
@[simp] theorem absorbByte_rspData (byte : Byte) (s : State) : (absorbByte byte s).rspData = s.rspData := by unfold absorbByte; dsimp only; split <;> rfl
@[simp] theorem absorbByte_inputs (byte : Byte) (s : State) : (absorbByte byte s).inputs = s.inputs := by unfold absorbByte; dsimp only; split <;> rfl
@[simp] theorem absorbByte_draws (byte : Byte) (s : State) : (absorbByte byte s).draws = s.draws := by unfold absorbByte; dsimp only; split <;> rfl
@[simp] theorem absorbByte_raised (byte : Byte) (s : State) : (absorbByte byte s).raised = s.raised := by unfold absorbByte; dsimp only; split <;> rfl
@[simp] theorem absorbByte_buf (byte : Byte) (s : State) :
    (absorbByte byte s).buf = s.buf.write s.fill byte := by unfold absorbByte; dsimp only; split <;> rfl
@[simp] theorem absorbByte_nbytes (byte : Byte) (s : State) :
    (absorbByte byte s).nbytes = s.nbytes + 1#61 := by
  unfold absorbByte
  by_cases h : s.fill = 63
  · simp only [if_pos h, startBlock_nbytes]
  · simp only [if_neg h]
@[simp] theorem absorbByte_seq (byte : Byte) (s : State) :
    (absorbByte byte s).seq = if s.fill = 63 then .load else s.seq := by unfold absorbByte; dsimp only; split <;> rfl
@[simp] theorem absorbByte_cont (byte : Byte) (s : State) :
    (absorbByte byte s).cont = if s.fill = 63 then .absorb else s.cont := by unfold absorbByte; dsimp only; split <;> rfl

/-! ### Final padding -/

@[simp] theorem finalPad_phase (s : State) : (finalPad s).phase = s.phase := by unfold finalPad; dsimp only; split <;> rfl
@[simp] theorem finalPad_rnd (s : State) : (finalPad s).rnd = s.rnd := by unfold finalPad; dsimp only; split <;> rfl
@[simp] theorem finalPad_errUsage (s : State) : (finalPad s).errUsage = s.errUsage := by unfold finalPad; dsimp only; split <;> rfl
@[simp] theorem finalPad_errIllegal (s : State) : (finalPad s).errIllegal = s.errIllegal := by unfold finalPad; dsimp only; split <;> rfl
@[simp] theorem finalPad_errLen (s : State) : (finalPad s).errLen = s.errLen := by unfold finalPad; dsimp only; split <;> rfl
@[simp] theorem finalPad_hs (s : State) : (finalPad s).hs = s.hs := by unfold finalPad; dsimp only; split <;> rfl
@[simp] theorem finalPad_nbytes (s : State) : (finalPad s).nbytes = s.nbytes := by unfold finalPad; dsimp only; split <;> rfl
@[simp] theorem finalPad_w (s : State) : (finalPad s).w = s.w := by unfold finalPad; dsimp only; split <;> rfl
@[simp] theorem finalPad_ws (s : State) : (finalPad s).ws = s.ws := by unfold finalPad; dsimp only; split <;> rfl
@[simp] theorem finalPad_rspValid (s : State) : (finalPad s).rspValid = s.rspValid := by unfold finalPad; dsimp only; split <;> rfl
@[simp] theorem finalPad_rspData (s : State) : (finalPad s).rspData = s.rspData := by unfold finalPad; dsimp only; split <;> rfl
@[simp] theorem finalPad_inputs (s : State) : (finalPad s).inputs = s.inputs := by unfold finalPad; dsimp only; split <;> rfl
@[simp] theorem finalPad_draws (s : State) : (finalPad s).draws = s.draws := by unfold finalPad; dsimp only; split <;> rfl
@[simp] theorem finalPad_raised (s : State) : (finalPad s).raised = s.raised := by unfold finalPad; dsimp only; split <;> rfl
@[simp] theorem finalPad_seq (s : State) : (finalPad s).seq = .load := by unfold finalPad; dsimp only; split <;> rfl
@[simp] theorem finalPad_cont (s : State) :
    (finalPad s).cont = if s.fill ≤ 55 then .done else .pad2 := by unfold finalPad; dsimp only; split <;> rfl

/-! ### The second padding block -/

@[simp] theorem secondPad_phase (s : State) : (secondPad s).phase = s.phase := rfl
@[simp] theorem secondPad_rnd (s : State) : (secondPad s).rnd = s.rnd := rfl
@[simp] theorem secondPad_errUsage (s : State) : (secondPad s).errUsage = s.errUsage := rfl
@[simp] theorem secondPad_errIllegal (s : State) : (secondPad s).errIllegal = s.errIllegal := rfl
@[simp] theorem secondPad_errLen (s : State) : (secondPad s).errLen = s.errLen := rfl
@[simp] theorem secondPad_hs (s : State) : (secondPad s).hs = s.hs := rfl
@[simp] theorem secondPad_nbytes (s : State) : (secondPad s).nbytes = s.nbytes := rfl
@[simp] theorem secondPad_w (s : State) : (secondPad s).w = s.w := rfl
@[simp] theorem secondPad_ws (s : State) : (secondPad s).ws = s.ws := rfl
@[simp] theorem secondPad_rspValid (s : State) : (secondPad s).rspValid = s.rspValid := rfl
@[simp] theorem secondPad_rspData (s : State) : (secondPad s).rspData = s.rspData := rfl
@[simp] theorem secondPad_inputs (s : State) : (secondPad s).inputs = s.inputs := rfl
@[simp] theorem secondPad_draws (s : State) : (secondPad s).draws = s.draws := rfl
@[simp] theorem secondPad_raised (s : State) : (secondPad s).raised = s.raised := rfl
@[simp] theorem secondPad_buf (s : State) : (secondPad s).buf = writeLength 0 s.buf s.nbytes := by
  simp only [secondPad, startBlock]
@[simp] theorem secondPad_seq (s : State) : (secondPad s).seq = .load := rfl
@[simp] theorem secondPad_cont (s : State) : (secondPad s).cont = .done := rfl

/-! ### S_LOAD -/

@[simp] theorem sLoad_phase (s : State) : (sLoad s).phase = s.phase := rfl
@[simp] theorem sLoad_cont (s : State) : (sLoad s).cont = s.cont := rfl
@[simp] theorem sLoad_errUsage (s : State) : (sLoad s).errUsage = s.errUsage := rfl
@[simp] theorem sLoad_errIllegal (s : State) : (sLoad s).errIllegal = s.errIllegal := rfl
@[simp] theorem sLoad_errLen (s : State) : (sLoad s).errLen = s.errLen := rfl
@[simp] theorem sLoad_hs (s : State) : (sLoad s).hs = s.hs := rfl
@[simp] theorem sLoad_nbytes (s : State) : (sLoad s).nbytes = s.nbytes := rfl
@[simp] theorem sLoad_buf (s : State) : (sLoad s).buf = s.buf := rfl
@[simp] theorem sLoad_rspValid (s : State) : (sLoad s).rspValid = s.rspValid := rfl
@[simp] theorem sLoad_rspData (s : State) : (sLoad s).rspData = s.rspData := rfl
@[simp] theorem sLoad_inputs (s : State) : (sLoad s).inputs = s.inputs := rfl
@[simp] theorem sLoad_draws (s : State) : (sLoad s).draws = s.draws := rfl
@[simp] theorem sLoad_raised (s : State) : (sLoad s).raised = s.raised := rfl
@[simp] theorem sLoad_ws (s : State) : (sLoad s).ws = Working.ofVector s.hs := rfl
@[simp] theorem sLoad_w (s : State) : (sLoad s).w = loadSchedule s.buf s.w := rfl
@[simp] theorem sLoad_rnd (s : State) : (sLoad s).rnd = 0#7 := rfl
@[simp] theorem sLoad_seq (s : State) : (sLoad s).seq = .round := rfl

/-! ### S_ROUND -/

@[simp] theorem roundStep_phase (j : Nat) (hj : j < 64) (s : State) : (roundStep j hj s).phase = s.phase := rfl
@[simp] theorem roundStep_cont (j : Nat) (hj : j < 64) (s : State) : (roundStep j hj s).cont = s.cont := rfl
@[simp] theorem roundStep_errUsage (j : Nat) (hj : j < 64) (s : State) : (roundStep j hj s).errUsage = s.errUsage := rfl
@[simp] theorem roundStep_errIllegal (j : Nat) (hj : j < 64) (s : State) : (roundStep j hj s).errIllegal = s.errIllegal := rfl
@[simp] theorem roundStep_errLen (j : Nat) (hj : j < 64) (s : State) : (roundStep j hj s).errLen = s.errLen := rfl
@[simp] theorem roundStep_hs (j : Nat) (hj : j < 64) (s : State) : (roundStep j hj s).hs = s.hs := rfl
@[simp] theorem roundStep_nbytes (j : Nat) (hj : j < 64) (s : State) : (roundStep j hj s).nbytes = s.nbytes := rfl
@[simp] theorem roundStep_buf (j : Nat) (hj : j < 64) (s : State) : (roundStep j hj s).buf = s.buf := rfl
@[simp] theorem roundStep_rspValid (j : Nat) (hj : j < 64) (s : State) : (roundStep j hj s).rspValid = s.rspValid := rfl
@[simp] theorem roundStep_rspData (j : Nat) (hj : j < 64) (s : State) : (roundStep j hj s).rspData = s.rspData := rfl
@[simp] theorem roundStep_inputs (j : Nat) (hj : j < 64) (s : State) : (roundStep j hj s).inputs = s.inputs := rfl
@[simp] theorem roundStep_draws (j : Nat) (hj : j < 64) (s : State) : (roundStep j hj s).draws = s.draws := rfl
@[simp] theorem roundStep_raised (j : Nat) (hj : j < 64) (s : State) : (roundStep j hj s).raised = s.raised := rfl
@[simp] theorem roundStep_w (j : Nat) (hj : j < 64) (s : State) :
    (roundStep j hj s).w = expandSchedule s.w j hj := rfl
@[simp] theorem roundStep_ws (j : Nat) (hj : j < 64) (s : State) :
    (roundStep j hj s).ws = s.ws.round (roundConstant j) (expandSchedule s.w j hj)[j] := rfl
@[simp] theorem roundStep_rnd (j : Nat) (hj : j < 64) (s : State) :
    (roundStep j hj s).rnd = BitVec.ofNat 7 (j + 1) := rfl
@[simp] theorem roundStep_seq (j : Nat) (hj : j < 64) (s : State) :
    (roundStep j hj s).seq = if j = 63 then .acc else .round := rfl

/-! ### S_ACC -/

@[simp] theorem sAcc_rnd (s : State) : (sAcc s).rnd = s.rnd := by unfold sAcc; split <;> rfl
@[simp] theorem sAcc_errUsage (s : State) : (sAcc s).errUsage = s.errUsage := by unfold sAcc; split <;> rfl
@[simp] theorem sAcc_errIllegal (s : State) : (sAcc s).errIllegal = s.errIllegal := by unfold sAcc; split <;> rfl
@[simp] theorem sAcc_errLen (s : State) : (sAcc s).errLen = s.errLen := by unfold sAcc; split <;> rfl
@[simp] theorem sAcc_nbytes (s : State) : (sAcc s).nbytes = s.nbytes := by unfold sAcc; split <;> rfl
@[simp] theorem sAcc_w (s : State) : (sAcc s).w = s.w := by unfold sAcc; split <;> rfl
@[simp] theorem sAcc_ws (s : State) : (sAcc s).ws = s.ws := by unfold sAcc; split <;> rfl
@[simp] theorem sAcc_rspValid (s : State) : (sAcc s).rspValid = s.rspValid := by unfold sAcc; split <;> rfl
@[simp] theorem sAcc_rspData (s : State) : (sAcc s).rspData = s.rspData := by unfold sAcc; split <;> rfl
@[simp] theorem sAcc_inputs (s : State) : (sAcc s).inputs = s.inputs := by unfold sAcc; split <;> rfl
@[simp] theorem sAcc_draws (s : State) : (sAcc s).draws = s.draws := by unfold sAcc; split <;> rfl
@[simp] theorem sAcc_raised (s : State) : (sAcc s).raised = s.raised := by unfold sAcc; split <;> rfl
@[simp] theorem sAcc_hs (s : State) : (sAcc s).hs = accumulate s.hs s.ws := by unfold sAcc; split <;> rfl
@[simp] theorem sAcc_phase (s : State) :
    (sAcc s).phase = if s.cont = .done then .done else s.phase := by
  unfold sAcc; split <;> rename_i h <;> rw [h] <;> rfl
@[simp] theorem sAcc_seq (s : State) :
    (sAcc s).seq = if s.cont = .pad2 then .load else .idle := by
  unfold sAcc; split <;> rename_i h <;> rw [h] <;> rfl
@[simp] theorem sAcc_cont (s : State) :
    (sAcc s).cont = if s.cont = .pad2 then .done else s.cont := by
  unfold sAcc; split <;> rename_i h <;> rw [h] <;> simp
@[simp] theorem sAcc_buf (s : State) :
    (sAcc s).buf = if s.cont = .pad2 then writeLength 0 s.buf s.nbytes else s.buf := by
  unfold sAcc; split <;> rename_i h <;> simp [h]

/-! ### BUSY and FILL -/

@[simp] theorem busy_iff (s : State) : s.busy = true ↔ s.seq ≠ .idle := by
  unfold State.busy; cases s.seq <;> simp

theorem not_busy_iff (s : State) : s.busy = false ↔ s.seq = .idle := by
  unfold State.busy; cases s.seq <;> simp

end Sys2Proof.Machine
end

