-- ==== Sys2Proof/Laws/Exec.lean ====
section
/-! SUPPORT. What a command can do: `exec` is acceptance around one effect per command. -/

namespace Sys2Proof.Machine

/-- The effect of an accepted command, before RSP_VALID is set. -/
def commandEffect : Instr → State → State
  | .nop => id
  | .init => openComputation
  | .update byte => updateEffect byte
  | .final => finalEffect
  | .read idx => readEffect idx
  | .rdstat => fun s => { s with rspData := s.status }
  | .reserved6 => raise .illegal
  | .reserved7 => raise .illegal

/-- Whether a command answers with a response (45_commands.md R102). -/
def responds : Instr → Bool
  | .read _ => true
  | .rdstat => true
  | .nop => false
  | .init => false
  | .update _ => false
  | .final => false
  | .reserved6 => false
  | .reserved7 => false

/-- Everything `exec` can do. -/
theorem exec_eq_accept (i : Instr) (s : State) : exec i s = accept (responds i) (commandEffect i) s := by
  cases i <;> rfl

theorem accept_of_busy {r : Bool} {f : State → State} {s : State} (h : s.busy = true) :
    accept r f s = .next s := if_pos h

theorem accept_of_ready {r : Bool} {f : State → State} {s : State} (h : s.busy = false) :
    accept r f s = .next { f s with rspValid := r } := by simp [accept, h]

/-- Acceptance answers next, in one of two ways. -/
theorem accept_next {r : Bool} {f : State → State} {s t : State} (h : accept r f s = .next t) :
    (s.busy = true ∧ t = s) ∨ (s.busy = false ∧ t = { f s with rspValid := r }) := by
  cases hb : s.busy with
  | true => rw [accept_of_busy hb] at h; cases h; exact .inl ⟨rfl, rfl⟩
  | false => rw [accept_of_ready hb] at h; cases h; exact .inr ⟨rfl, rfl⟩

theorem exec_of_busy {i : Instr} {s : State} (h : s.busy = true) : exec i s = .next s := by
  rw [exec_eq_accept, accept_of_busy h]

theorem exec_of_ready {i : Instr} {s : State} (h : s.busy = false) :
    exec i s = .next { commandEffect i s with rspValid := responds i } := by
  rw [exec_eq_accept, accept_of_ready h]

/-- A command always answers next. -/
theorem exec_total (i : Instr) (s : State) : ∃ t, exec i s = .next t := by
  cases hb : s.busy with
  | true => exact ⟨_, exec_of_busy hb⟩
  | false => exact ⟨_, exec_of_ready hb⟩

/-! ### BUF stays canonical -/

/-- Final padding keeps the canonical form of BUF. -/
theorem wf_finalPad {s : State} (hw : s.buf.wf = true) : (finalPad s).buf.wf = true := by
  have hfl := s.fill_lt
  have hw1 := Memory.wf_write hw hfl 0x80#8
  unfold finalPad
  by_cases hf : s.fill ≤ 55
  · simp only [hf, if_true, startBlock_buf]
    exact wf_writeLength hw1 (by omega) _
  · simp only [hf, if_false, startBlock_buf]
    exact Memory.wf_writeBytes hw1 (by simp; omega)

/-- A reset edge leaves BUF in its canonical form. -/
theorem wf_resetEffect (s : State) : (resetEffect s).buf.wf = true := by
  have h : (resetEffect s).buf = Memory.writeBytes [] 0 ((List.range 64).map (Config.anyBufByte s.draws)) := by
    simp only [resetEffect]
  rw [h]
  exact Memory.wf_writeBytes Memory.wf_nil (by simp)

/-! ### What no command touches -/

theorem updateEffect_cases (byte : Byte) (s : State) :
    (s.phase ≠ .absorb ∧ updateEffect byte s = raise .usage s) ∨
    (s.phase = .absorb ∧ s.nbytes = Config.maxMsgBytes ∧ updateEffect byte s = raise .len s) ∨
    (s.phase = .absorb ∧ s.nbytes ≠ Config.maxMsgBytes ∧ updateEffect byte s = absorbByte byte s) := by
  unfold updateEffect
  by_cases hp : s.phase = .absorb
  · by_cases hn : s.nbytes = Config.maxMsgBytes
    · exact .inr (.inl ⟨hp, hn, by simp only [hp, hn, ne_eq, not_true_eq_false, if_false, if_true]⟩)
    · exact .inr (.inr ⟨hp, hn, by simp only [hp, hn, ne_eq, not_true_eq_false, if_false]⟩)
  · exact .inl ⟨hp, if_pos hp⟩

theorem finalEffect_cases (s : State) :
    (s.phase ≠ .absorb ∧ finalEffect s = raise .usage s) ∨ (s.phase = .absorb ∧ finalEffect s = finalPad s) := by
  unfold finalEffect
  by_cases hp : s.phase = .absorb
  · exact .inr ⟨hp, if_neg (not_not.mpr hp)⟩
  · exact .inl ⟨hp, if_pos hp⟩

theorem readEffect_cases (idx : BitVec 5) (s : State) :
    (s.phase ≠ .done ∧ readEffect idx s = drawRspData (raise .usage s)) ∨
    (s.phase = .done ∧ readEffect idx s = { s with rspData := digestByte s.hs idx }) := by
  unfold readEffect
  by_cases hp : s.phase = .done
  · exact .inr ⟨hp, if_neg (not_not.mpr hp)⟩
  · exact .inl ⟨hp, if_pos hp⟩

/-- A field that no command writes is left as it was. -/
theorem commandEffect_keeps {α : Type} (field : State → α)
    (hraise : ∀ e s, field (raise e s) = field s) (hdraw : ∀ s, field (drawRspData s) = field s)
    (hopen : ∀ s, field (openComputation s) = field s) (habs : ∀ b s, field (absorbByte b s) = field s)
    (hfin : ∀ s, field (finalPad s) = field s) (hrsp : ∀ (s : State) d, field { s with rspData := d } = field s)
    (i : Instr) (s : State) : field (commandEffect i s) = field s := by
  cases i with
  | nop => rfl
  | init => exact hopen s
  | update b =>
    show field (updateEffect b s) = _
    obtain ⟨-, h⟩ | ⟨-, -, h⟩ | ⟨-, -, h⟩ := updateEffect_cases b s <;> rw [h] <;> simp only [hraise, habs]
  | final =>
    show field (finalEffect s) = _
    obtain ⟨-, h⟩ | ⟨-, h⟩ := finalEffect_cases s <;> rw [h] <;> simp only [hraise, hfin]
  | read idx =>
    show field (readEffect idx s) = _
    obtain ⟨-, h⟩ | ⟨-, h⟩ := readEffect_cases idx s <;> rw [h] <;> simp only [hraise, hdraw, hrsp]
  | rdstat => exact hrsp s _
  | reserved6 => exact hraise _ s
  | reserved7 => exact hraise _ s

@[simp] theorem commandEffect_w (i : Instr) (s : State) : (commandEffect i s).w = s.w :=
  commandEffect_keeps State.w (by simp) (by simp) (by simp) (by simp) (by simp) (by simp) i s

@[simp] theorem commandEffect_ws (i : Instr) (s : State) : (commandEffect i s).ws = s.ws :=
  commandEffect_keeps State.ws (by simp) (by simp) (by simp) (by simp) (by simp) (by simp) i s

@[simp] theorem commandEffect_rnd (i : Instr) (s : State) : (commandEffect i s).rnd = s.rnd :=
  commandEffect_keeps State.rnd (by simp) (by simp) (by simp) (by simp) (by simp) (by simp) i s

@[simp] theorem commandEffect_inputs (i : Instr) (s : State) : (commandEffect i s).inputs = s.inputs :=
  commandEffect_keeps State.inputs (by simp) (by simp) (by simp) (by simp) (by simp) (by simp) i s

end Sys2Proof.Machine
end

