-- ==== Sys2Proof/Laws/Step.lean ====
section
/-! SUPPORT. What a step can do, said once, and how runs of steps compose. -/

namespace Sys2Proof.Machine

theorem microStep_of_idle {s : State} (h : s.seq = .idle) : microStep s = .next s := by
  simp only [microStep, h]

theorem microStep_of_load {s : State} (h : s.seq = .load) : microStep s = .next (sLoad s) := by
  simp only [microStep, h]

theorem microStep_of_acc {s : State} (h : s.seq = .acc) : microStep s = .next (sAcc s) := by
  simp only [microStep, h]

theorem microStep_of_round {s : State} (h : s.seq = .round) (hj : s.rnd.toNat < 64) :
    microStep s = .next (roundStep s.rnd.toNat hj s) := by
  simp only [microStep, h, sRound, hj, dif_pos]

/-- The micro-step that answers next, case by case. -/
theorem microStep_next {s t : State} (h : microStep s = .next t) :
    (s.seq = .idle ∧ t = s) ∨ (s.seq = .load ∧ t = sLoad s) ∨
    (∃ hj : s.rnd.toNat < 64, s.seq = .round ∧ t = roundStep s.rnd.toNat hj s) ∨
    (s.seq = .acc ∧ t = sAcc s) := by
  cases hs : s.seq with
  | idle => rw [microStep_of_idle hs] at h; cases h; exact .inl ⟨rfl, rfl⟩
  | load => rw [microStep_of_load hs] at h; cases h; exact .inr (.inl ⟨rfl, rfl⟩)
  | acc => rw [microStep_of_acc hs] at h; cases h; exact .inr (.inr (.inr ⟨rfl, rfl⟩))
  | round =>
    by_cases hj : s.rnd.toNat < 64
    · rw [microStep_of_round hs hj] at h; cases h; exact .inr (.inr (.inl ⟨hj, rfl, rfl⟩))
    · simp only [microStep, hs, sRound, hj] at h
      cases h

/-- Everything a step can do: a reset edge, an accepted command, an edge with nothing to do, or a micro-step. -/
theorem step_next {s t : State} (h : step s = .next t) :
    (∃ e rest, s.inputs = e :: rest ∧ e.rst = true ∧ t = resetEffect { s with inputs := e.unaccepted rest }) ∨
    (∃ cw rest, accepts s cw rest ∧
      t = { commandEffect (decode cw) { s with inputs := rest } with rspValid := responds (decode cw) }) ∨
    (s.seq = .idle ∧ ∃ rest, t = { s with inputs := rest }) ∨
    (s.seq ≠ .idle ∧ ¬ resetComing s ∧ ∃ rest, microStep { s with inputs := rest } = .next t) := by
  unfold step clockEdge at h
  split at h
  · rename_i hin
    by_cases hs : s.seq = .idle
    · rw [microStep_of_idle hs] at h
      cases h
      exact .inr (.inr (.inl ⟨hs, [], by rw [← hin]⟩))
    · refine .inr (.inr (.inr ⟨hs, ?_, [], ?_⟩))
      · rintro ⟨e, rest, he, -⟩
        rw [hin] at he
        cases he
      · rw [← hin]; exact h
  · rename_i e rest hin
    unfold edgeWith at h
    split at h
    · rename_i hr
      cases h
      exact .inl ⟨e, rest, hin, hr, rfl⟩
    · rename_i hr
      have hr' : e.rst = false := by simpa using hr
      split at h
      · rename_i hc
        have hs : s.seq = .idle := by
          rw [← not_busy_iff]; simpa [State.cmdReady, hr'] using hc
        split at h
        · cases h
          exact .inr (.inr (.inl ⟨hs, rest, rfl⟩))
        · rename_i cw hw
          have hb : State.busy { s with inputs := rest } = false := (not_busy_iff s).mpr hs
          rw [exec_of_ready hb] at h
          cases h
          exact .inr (.inl ⟨cw, rest, ⟨hs, e, hin, hr', hw⟩, rfl⟩)
      · rename_i hc
        have hs : s.seq ≠ .idle := by
          rw [← busy_iff]
          simpa [State.cmdReady, hr'] using hc
        refine .inr (.inr (.inr ⟨hs, ?_, _, h⟩))
        rintro ⟨e', rest', he', hre'⟩
        rw [hin] at he'
        cases he'
        exact hr hre'

/-- An accepting edge runs the decoded command. -/
theorem step_of_accepts {s : State} {cw : CmdWord} {rest : List HostEdge} (h : accepts s cw rest) :
    step s = exec (decode cw) { s with inputs := rest } := by
  obtain ⟨hs, e, hin, hr, hw⟩ := h
  have hb : s.busy = false := (not_busy_iff s).mpr hs
  simp [step, clockEdge, edgeWith, hin, hr, hw, State.cmdReady, hb]

/-- While the core is busy and no reset comes, a step is the micro-step. -/
theorem step_of_busy {s : State} {e : HostEdge} {rest : List HostEdge} (hin : s.inputs = e :: rest)
    (hr : e.rst = false) (hb : s.busy = true) : step s = microStep { s with inputs := e.unaccepted rest } := by
  simp [step, clockEdge, edgeWith, hin, hr, State.cmdReady, hb]

theorem step_of_nil {s : State} (hin : s.inputs = []) : step s = microStep s := by
  simp only [step, clockEdge, hin]

/-- With no reset at the coming edge, a step of a busy core is its micro-step, whatever the host drives. -/
theorem step_of_busy_noReset {s : State} (hs : s.seq ≠ .idle) (hr : ¬ resetComing s) :
    ∃ rest, step s = microStep { s with inputs := rest } := by
  cases hi : s.inputs with
  | nil => exact ⟨s.inputs, step_of_nil hi⟩
  | cons e rest =>
    have he : e.rst = false := by
      cases h : e.rst with
      | false => rfl
      | true => exact absurd ⟨e, rest, hi, h⟩ hr
    exact ⟨_, step_of_busy hi he ((busy_iff s).mpr hs)⟩

/-! ### Runs -/

theorem run_zero (s : State) : runSteps 0 s = .next s := rfl

theorem run_succ (k : Nat) {s t : State} (h : step s = .next t) :
    runSteps (k + 1) s = runSteps k t := by
  have h' : Sys2Proof.core.step s = .next t := h
  simp only [runSteps, Host.Core.run, h']
  rfl

/-- A run that answers next after k + 1 steps answered next after the first. -/
theorem run_succ_next {k : Nat} {s u : State} (h : runSteps (k + 1) s = .next u) :
    ∃ t, step s = .next t ∧ runSteps k t = .next u := by
  simp only [runSteps, Host.Core.run] at h
  split at h
  · rename_i t ht
    exact ⟨t, ht, h⟩
  · cases h
  · cases h

/-- A run of k steps then m steps is a run of k + m. -/
theorem run_add {k m : Nat} {s t : State} (h : runSteps k s = .next t) :
    runSteps (k + m) s = runSteps m t := by
  induction k generalizing s with
  | zero => cases h; rw [Nat.zero_add]
  | succ k ih =>
    obtain ⟨u, hu, hr⟩ := run_succ_next h
    rw [Nat.succ_add, run_succ (k + m) hu]
    exact ih hr

end Sys2Proof.Machine
end

