-- ==== Sys2Proof/Laws/Host.lean ====
section
/-! SUPPORT. Steps of a core whose host issues commands, each held until it is accepted (45_commands.md R100, R101). -/

namespace Sys2Proof.Machine

/-- A host that issues commands holds the next one. -/
theorem hostHolds_issue (words : List CmdWord) : hostHolds (issue words) := by
  cases words with
  | nil => exact .inl rfl
  | cons w ws => exact .inr ⟨w, issue ws, rfl⟩

/-- While the core is busy and the host holds, a step is the micro-step, and the host's edges stay. -/
theorem step_of_busy_held {s : State} (hs : s.seq ≠ .idle) (hh : hostHolds s.inputs) : step s = microStep s := by
  rcases hh with hi | ⟨cw, rest, hi⟩
  · exact step_of_nil hi
  · rw [step_of_busy hi rfl ((busy_iff s).mpr hs)]
    congr 1
    simp only [HostEdge.unaccepted, ← hi]

/-- A micro-step neither reads nor moves the host's edges. -/
theorem microStep_inputs {s t : State} (h : microStep s = .next t) (edges : List HostEdge) :
    microStep { s with inputs := edges } = .next { t with inputs := edges } ∧ t.inputs = s.inputs := by
  obtain ⟨hq, rfl⟩ | ⟨hq, rfl⟩ | ⟨hj, hq, rfl⟩ | ⟨hq, rfl⟩ := microStep_next h
  · exact ⟨microStep_of_idle (s := { t with inputs := edges }) hq, rfl⟩
  · exact ⟨microStep_of_load (s := { s with inputs := edges }) hq, rfl⟩
  · exact ⟨microStep_of_round (s := { s with inputs := edges }) hq hj, rfl⟩
  · refine ⟨(microStep_of_acc (s := { s with inputs := edges }) hq).trans ?_, by simp⟩
    congr 1
    cases hc : s.cont <;> simp [sAcc, hc, secondPad, startBlock]

/-- The effect of a command does not depend on the host's coming edges. -/
theorem commandEffect_withInputs (i : Instr) (s : State) (edges : List HostEdge) :
    commandEffect i { s with inputs := edges } = { commandEffect i s with inputs := edges } := by
  have hfill : State.fill { s with inputs := edges } = s.fill := rfl
  cases i with
  | nop => rfl
  | init => rfl
  | rdstat => rfl
  | reserved6 => rfl
  | reserved7 => rfl
  | read idx =>
    simp only [commandEffect, readEffect]
    split <;> rfl
  | update b =>
    simp only [commandEffect, updateEffect]
    split
    · rfl
    · split
      · rfl
      · by_cases hf : s.fill = 63
        · simp only [absorbByte, hfill, hf, if_true, startBlock]
        · simp only [absorbByte, hfill, hf, if_false]
  | final =>
    simp only [commandEffect, finalEffect]
    split
    · rfl
    · by_cases hf : s.fill ≤ 55
      · simp only [finalPad, hfill, hf, if_true, startBlock]
      · simp only [finalPad, hfill, hf, if_false, startBlock]

/-- A core with BUSY = 0 accepts the next issued word. -/
theorem step_of_issue {s : State} {cw : CmdWord} {words : List CmdWord} (hs : s.seq = .idle)
    (hi : s.inputs = issue (cw :: words)) :
    step s = .next { commandEffect (decode cw) { s with inputs := issue words } with
      rspValid := responds (decode cw) } := by
  rw [step_of_accepts (cw := cw) (rest := issue words) ⟨hs, ⟨false, .hold cw⟩, hi, rfl, rfl⟩]
  exact exec_of_ready ((not_busy_iff _).mpr hs)

end Sys2Proof.Machine
end

