-- ==== Sys2Proof/Laws/PerInstr.lean ====
section
/-! SUPPORT. One fact about each instruction as syntax: its canonical word lies in its own row of the opcode map, and
the bits it ignores are zero there (30_encoding.md R55, R56). -/

namespace Sys2Proof.Laws.CanonicalWord

/-- The canonical word of `i` selects the row of `i`'s mnemonic, and its ignored bits are 0. -/
def Statement (i : Instr) : Prop :=
  (∃ r ∈ opcodeMap, r.mnemonic = i.mnemonic ∧ r.selects (encode i) = true) ∧ encode i &&& ignoredBits i = 0x000#11

theorem nop : Statement .nop := by unfold Statement; decide

theorem init : Statement .init := by unfold Statement; decide

theorem update (byte : Byte) : Statement (.update byte) := by
  revert byte
  unfold Statement
  decide +kernel

theorem final : Statement .final := by unfold Statement; decide

theorem read (idx : BitVec 5) : Statement (.read idx) := by
  revert idx
  unfold Statement
  decide +kernel

theorem rdstat : Statement .rdstat := by unfold Statement; decide

theorem reserved6 : Statement .reserved6 := by unfold Statement; decide

theorem reserved7 : Statement .reserved7 := by unfold Statement; decide

end Sys2Proof.Laws.CanonicalWord
end

