-- ==== Sys2Proof/Laws/Reference.lean ====
section
/-! SUPPORT. The reference functions: the bytes of the padded message, and that the schedule, the compression and the
chain depend on nothing but the bytes of their blocks. -/

namespace Sys2Proof.Machine

/-! ### Byte order -/

/-- A big-endian word as a number (20_memory.md R36). -/
theorem beWord_toNat (b : Nat → Byte) (i : Nat) :
    (beWord b i).toNat = (b i).toNat * 2 ^ 24 + (b (i + 1)).toNat * 2 ^ 16 + (b (i + 2)).toNat * 2 ^ 8 +
      (b (i + 3)).toNat := by
  have h1 := (b (i + 1)).isLt
  have h2 := (b (i + 2)).isLt
  have h3 := (b (i + 3)).isLt
  simp only [beWord, BitVec.toNat_append]
  rw [← Nat.shiftLeft_add_eq_or_of_lt h1, ← Nat.shiftLeft_add_eq_or_of_lt h2, ← Nat.shiftLeft_add_eq_or_of_lt h3]
  simp only [Nat.shiftLeft_eq]
  ring

/-- The length field is eight times the byte count (41_padder.md R77). -/
theorem len64_toNat (n : BitVec 61) : (len64 n).toNat = 8 * n.toNat := by
  simp only [len64, BitVec.toNat_append]
  rw [Nat.shiftLeft_eq]
  simp
  omega

/-- The bytes of the length field where BUF[56..63] holds them (R77). -/
theorem be64_len64_getD (n : BitVec 61) {j : Nat} (h56 : 56 ≤ j) (h64 : j < 64) :
    (be64 (len64 n)).getD (j - 56) 0x00#8 = BitVec.ofNat 8 (8 * n.toNat / 2 ^ (8 * (63 - j))) := by
  have byte : ∀ k, BitVec.extractLsb' k 8 (len64 n) = BitVec.ofNat 8 (8 * n.toNat / 2 ^ k) := by
    intro k
    apply BitVec.eq_of_toNat_eq
    simp [BitVec.extractLsb'_toNat, len64_toNat, Nat.shiftRight_eq_div_pow]
  interval_cases j <;> simp [be64, byte]

/-! ### The padded message (R72) -/

theorem padZeros_eq (len : Nat) : padZeros len = (119 - len % 64) % 64 := by
  unfold padZeros
  omega

/-- Below the message's length the padded message is the message. -/
theorem pad_getD_message (msg : List Byte) {i : Nat} (h : i < msg.length) :
    (pad msg).getD i 0x00#8 = msg.getD i 0x00#8 := by
  unfold pad
  rw [List.append_assoc, List.append_assoc, List.getD_append _ _ _ _ h]

/-- The terminator stands right after the message. -/
theorem pad_getD_terminator (msg : List Byte) : (pad msg).getD msg.length 0x00#8 = 0x80#8 := by
  unfold pad
  rw [List.append_assoc, List.append_assoc, List.getD_append_right _ _ _ _ (le_refl _)]
  simp

/-- The zero fill. -/
theorem pad_getD_zero (msg : List Byte) {i : Nat} (h : msg.length < i) (hz : i < msg.length + 1 + padZeros msg.length) :
    (pad msg).getD i 0x00#8 = 0x00#8 := by
  unfold pad
  rw [List.getD_append _ _ _ _ (by simp; omega), List.getD_append_right _ _ _ _ (by simp; omega),
    List.getD_eq_getElem _ _ (by simp; omega), List.getElem_replicate]

/-- The length field ends the padded message. -/
theorem pad_getD_length (msg : List Byte) {i : Nat} (h : msg.length + 1 + padZeros msg.length ≤ i) :
    (pad msg).getD i 0x00#8 =
      (be64 (BitVec.ofNat 64 (8 * msg.length))).getD (i - (msg.length + 1 + padZeros msg.length)) 0x00#8 := by
  unfold pad
  rw [List.getD_append_right _ _ _ _ (by simp; omega)]
  congr 1
  simp
  omega

/-- A block byte inside the message does not depend on what follows the message. -/
theorem padBlock_append (msg more : List Byte) {k i : Nat} (h : 64 * k + i < msg.length) :
    padBlock (msg ++ more) k i = padBlock msg k i := by
  unfold padBlock
  rw [pad_getD_message _ h, pad_getD_message _ (by simp; omega), List.getD_append _ _ _ _ h]

/-! ### Dependence on the block alone -/

theorem beWord_congr {b b' : Nat → Byte} (h : ∀ i < 64, b i = b' i) {j : Nat} (hj : j < 16) :
    beWord b (4 * j) = beWord b' (4 * j) := by
  simp only [beWord]
  rw [h _ (by omega), h _ (by omega), h _ (by omega), h _ (by omega)]

theorem scheduleWords_congr {b b' : Nat → Byte} (h : ∀ i < 64, b i = b' i) (n : Nat) :
    scheduleWords b n = scheduleWords b' n := by
  induction n with
  | zero => exact List.map_congr_left fun j hj => beWord_congr h (by simpa using hj)
  | succ n ih => simp only [scheduleWords, ih]

theorem compressRounds_congr {b b' : Nat → Byte} (h : ∀ i < 64, b i = b' i) (hs : HashState) (n : Nat) :
    compressRounds hs b n = compressRounds hs b' n := by
  induction n with
  | zero => rfl
  | succ n ih => simp only [compressRounds, ih, scheduleWord, scheduleWords_congr h]

/-- Compress(H, B) depends on the 64 bytes of B alone (43_compressor.md R87). -/
theorem compress_congr {b b' : Nat → Byte} (h : ∀ i < 64, b i = b' i) (hs : HashState) :
    compress hs b = compress hs b' := compressRounds_congr h hs 64

/-- The chain over complete blocks of a message does not depend on what follows it (44_accumulator_serializer.md
R95). -/
theorem chain_append (msg more : List Byte) (k : Nat) (h : 64 * k ≤ msg.length) :
    chain (msg ++ more) k = chain msg k := by
  induction k with
  | zero => rfl
  | succ k ih =>
    simp only [chain]
    rw [ih (by omega), compress_congr fun i hi => padBlock_append msg more (k := k) (i := i) (by omega)]

end Sys2Proof.Machine
end

