-- ==== Sys2Proof/Laws/Schedule.lean ====
section
/-! SUPPORT. The schedule of a block, word by word (42_schedule.md R81), and what the expander writes into W. -/

namespace Sys2Proof.Machine

@[simp] theorem scheduleWords_length (b : Nat → Byte) (n : Nat) : (scheduleWords b n).length = 16 + n := by
  induction n with
  | zero => simp [scheduleWords]
  | succ n ih => simp [scheduleWords, ih]; omega

/-- A longer schedule keeps the words of a shorter one. -/
theorem scheduleWords_getD_add (b : Nat → Byte) {n j : Nat} (m : Nat) (hj : j < 16 + n) :
    (scheduleWords b (n + m)).getD j 0#32 = (scheduleWords b n).getD j 0#32 := by
  induction m with
  | zero => rfl
  | succ m ih =>
    rw [← ih]
    show ((scheduleWords b (n + m)) ++ [_]).getD j 0#32 = _
    rw [List.getD_append _ _ _ _ (by rw [scheduleWords_length]; omega)]

/-- A word of the schedule is that of any prefix long enough to hold it. -/
theorem scheduleWord_eq (b : Nat → Byte) {n j : Nat} (hn : n ≤ 48) (hj : j < 16 + n) :
    scheduleWord b j = (scheduleWords b n).getD j 0#32 := by
  unfold scheduleWord
  rw [← scheduleWords_getD_add b (48 - n) hj, Nat.add_sub_cancel' hn]

/-- w[j] for j in 0..15 is a big-endian read of the block. -/
theorem scheduleWord_load (b : Nat → Byte) {j : Nat} (hj : j < 16) : scheduleWord b j = beWord b (4 * j) := by
  rw [scheduleWord_eq b (Nat.zero_le 48) (by omega)]
  show ((List.range 16).map fun j => beWord b (4 * j)).getD j 0#32 = _
  rw [List.getD_eq_getElem _ _ (by simpa using hj)]
  simp

/-- w[j] for j in 16..63 from the words below it. -/
theorem scheduleWord_expand (b : Nat → Byte) {j : Nat} (h16 : 16 ≤ j) (hj : j < 64) :
    scheduleWord b j = scheduleWord b (j - 16) + smallS0 (scheduleWord b (j - 15)) + scheduleWord b (j - 7) +
      smallS1 (scheduleWord b (j - 2)) := by
  obtain ⟨n, rfl⟩ : ∃ n, j = 16 + n := ⟨j - 16, by omega⟩
  rw [scheduleWord_eq b (n := n + 1) (by omega) (by omega), scheduleWord_eq b (n := n) (by omega) (by omega),
    scheduleWord_eq b (n := n) (j := 16 + n - 15) (by omega) (by omega),
    scheduleWord_eq b (n := n) (j := 16 + n - 7) (by omega) (by omega),
    scheduleWord_eq b (n := n) (j := 16 + n - 2) (by omega) (by omega)]
  rw [show 16 + n - 16 = n by omega, show 16 + n - 15 = n + 1 by omega, show 16 + n - 7 = n + 9 by omega,
    show 16 + n - 2 = n + 14 by omega]
  show (scheduleWords b n ++ [_]).getD (16 + n) 0#32 = _
  rw [List.getD_append_right _ _ _ _ (by rw [scheduleWords_length]), scheduleWords_length, Nat.sub_self]
  rfl

/-! ### W -/

theorem loadSchedule_getElem (buf : Memory) (w : Vector Word 64) (j : Nat) (hj : j < 64) :
    (loadSchedule buf w)[j] = if j < 16 then beWord buf.read (4 * j) else w[j] := by
  simp [loadSchedule]

theorem expandSchedule_same (w : Vector Word 64) (j : Nat) (hj : j < 64) (h16 : 16 ≤ j) :
    (expandSchedule w j hj)[j] = w[j - 16] + smallS0 w[j - 15] + w[j - 7] + smallS1 w[j - 2] := by
  simp [expandSchedule, h16]

theorem expandSchedule_other (w : Vector Word 64) (j : Nat) (hj : j < 64) (k : Nat) (hk : k < 64)
    (h : k ≠ j ∨ j < 16) : (expandSchedule w j hj)[k] = w[k] := by
  unfold expandSchedule
  split
  · rw [Vector.getElem_set_ne _ _ (by omega)]
  · rfl

end Sys2Proof.Machine
end

