-- ==== Sys2Proof/Machine/Assembler.lean ====
section
/-! DEFINITION. The text of a command program (30_encoding.md R59, R60): one command per line, `;` starts a comment,
mnemonics are case-insensitive. A line is its list of characters. What the spec leaves open of the text's form is
log entry 18. -/

namespace Sys2Proof.Machine

/-- A token of a line. -/
inductive AsmToken where
  | name (cs : List Char)
  | char (c : Char)
  | bytes (bs : List Byte)
  deriving DecidableEq, Repr

/-- Where the lexer stands: between tokens, in a name or number, in a byte string (the latter two with what was
read, last first). -/
inductive LexMode where
  | gap
  | inName (read : List Char)
  | inBytes (read : List Byte)
  deriving DecidableEq, Repr

/-- The value of a hexadecimal digit. -/
def hexDigit (c : Char) : Option Nat :=
  if 48 ≤ c.toNat ∧ c.toNat ≤ 57 then some (c.toNat - 48)
  else if 65 ≤ c.toNat ∧ c.toNat ≤ 70 then some (c.toNat - 55)
  else if 97 ≤ c.toNat ∧ c.toNat ≤ 102 then some (c.toNat - 87)
  else none

/-- The ASCII code of a character. -/
def asciiByte (c : Char) : Option Byte := if c.toNat < 128 then some (BitVec.ofNat 8 c.toNat) else none

/-- The number a digit string stands for in a base, digits from the most significant. -/
def digitsValue (base : Nat) : Nat → List Char → Option Nat
  | n, [] => some n
  | n, c :: cs =>
    match hexDigit c with
    | some d => if d < base then digitsValue base (n * base + d) cs else none
    | none => none

/-- A number, in decimal or `0x` hexadecimal (R59). -/
def numberValue : List Char → Option Nat
  | [] => none
  | ['0', 'x'] => none
  | '0' :: 'x' :: digits => digitsValue 16 0 digits
  | digits => digitsValue 10 0 digits

/-- A letter in upper case. -/
def upperCase (c : Char) : Char := if 97 ≤ c.toNat ∧ c.toNat ≤ 122 then Char.ofNat (c.toNat - 32) else c

/-- A blank between tokens. -/
def isBlank (c : Char) : Bool := c = ' ' || c = '\t' || c = '\r'

/-- A token in front of the tokens that follow. -/
def consToken (t : AsmToken) : Except AsmReject (List AsmToken) → Except AsmReject (List AsmToken)
  | .ok ts => .ok (t :: ts)
  | .error e => .error e

/-- The tokens of a line; a comment ends it (R59). In a byte string `\xHH` stands for byte HH (R60). DESIGN CHOICE, log
entry 18: a `\x` that two hexadecimal digits do not follow makes the line malformed, and any other backslash stands for
itself. -/
def lexLine : LexMode → List Char → Except AsmReject (List AsmToken)
  | .gap, [] => .ok []
  | .gap, '\'' :: c :: '\'' :: cs => consToken (.char c) (lexLine .gap cs)
  | .gap, c :: cs =>
    if c = ';' then .ok []
    else if isBlank c then lexLine .gap cs
    else if c = '"' then lexLine (.inBytes []) cs
    else lexLine (.inName [c]) cs
  | .inName read, [] => .ok [.name read.reverse]
  | .inName read, c :: cs =>
    if c = ';' then .ok [.name read.reverse]
    else if isBlank c then consToken (.name read.reverse) (lexLine .gap cs)
    else lexLine (.inName (c :: read)) cs
  | .inBytes _, [] => .error .malformedLine
  | .inBytes read, '\\' :: 'x' :: hi :: lo :: cs =>
    match hexDigit hi, hexDigit lo with
    | some h, some l => lexLine (.inBytes (BitVec.ofNat 8 (16 * h + l) :: read)) cs
    | _, _ => .error .malformedLine
  | .inBytes _, '\\' :: 'x' :: _ => .error .malformedLine
  | .inBytes read, c :: cs =>
    if c = '"' then consToken (.bytes read.reverse) (lexLine .gap cs)
    else match asciiByte c with
      | some b => lexLine (.inBytes (b :: read)) cs
      | none => .error .malformedLine

/-- A line whose operand is a number. -/
def numberLine (mk : Nat → AsmLine) (digits : List Char) : Except AsmReject (Option AsmLine) :=
  match numberValue digits with
  | some n => .ok (some (mk n))
  | none => .error .malformedLine

/-- The line a token list stands for, if it holds a command; the mnemonic is in upper case. -/
def parseCommand (mnemonic : List Char) (operands : List AsmToken) : Except AsmReject (Option AsmLine) :=
  match mnemonic, operands with
  | ['N', 'O', 'P'], [] => .ok (some .nop)
  | ['I', 'N', 'I', 'T'], [] => .ok (some .init)
  | ['U', 'P', 'D', 'A', 'T', 'E'], [.name digits] => numberLine .update digits
  | ['U', 'P', 'D', 'A', 'T', 'E'], [.char c] =>
    match asciiByte c with
    | some b => .ok (some (.update b.toNat))
    | none => .error .malformedLine
  | ['F', 'I', 'N', 'A', 'L'], [] => .ok (some .final)
  | ['R', 'E', 'A', 'D'], [.name digits] => numberLine .read digits
  | ['R', 'D', 'S', 'T', 'A', 'T'], [] => .ok (some .rdstat)
  | ['.', 'W', 'O', 'R', 'D'], [.name digits] => numberLine .word digits
  | ['U', 'P', 'D', 'A', 'T', 'E', 'S'], [.bytes bs] => .ok (some (.updates bs))
  | ['R', 'E', 'A', 'D', 'A', 'L', 'L'], [] => .ok (some .readAll)
  | ['H', 'A', 'S', 'H'], [.bytes bs] => .ok (some (.hash bs))
  | _, _ => .error .malformedLine

/-- The command on a line of text, if there is one (R59, R60). -/
def parseLine (text : List Char) : Except AsmReject (Option AsmLine) :=
  match lexLine .gap text with
  | .ok [] => .ok none
  | .ok (.name m :: operands) => parseCommand (m.map upperCase) operands
  | .ok (_ :: _) => .error .malformedLine
  | .error e => .error e

/-- The words of a program text, line by line (R59). -/
def assembleText : List (List Char) → Except AsmReject (List CmdWord)
  | [] => .ok []
  | text :: rest =>
    match parseLine text, assembleText rest with
    | .ok none, more => more
    | .ok (some line), .ok more =>
      match assemble line with
      | .ok ws => .ok (ws ++ more)
      | .error e => .error e
    | .error e, _ => .error e
    | _, .error e => .error e

end Sys2Proof.Machine
end

