-- ==== Sys2Proof/Tests/Slice0.lean ====
section
/-! SUPPORT. Tests of the model, with expected values from spec/95_test_vectors.md and the rules, and for each statement
of Certificates/Slice0/Obligations.lean that has hypotheses a witness that meets all of them together. -/

namespace Sys2Proof.Tests

open Sys2Proof.Machine

/-! ### Small states -/

/-- The state a result answers, tested. -/
def shows (r : Result) (p : State → Bool) : Bool :=
  match r with
  | .next t => p t
  | .fault _ => false
  | .refused _ => false

/-- An open computation after n bytes, with the given block buffer. -/
def absorbing (n : Nat) (buf : Memory) : State :=
  { State.reset with phase := .absorb, hs := iv, nbytes := BitVec.ofNat 61 n, buf := buf }

/-- BUF after the three UPDATEs of "abc". -/
def abcBuf : Memory := [(0, 0x61#8), (1, 0x62#8), (2, 0x63#8)]

/-- BUF of the padded "abc" block (95_test_vectors.md L1-2). -/
def abcBlock : Memory := [(0, 0x61#8), (1, 0x62#8), (2, 0x63#8), (3, 0x80#8), (63, 0x18#8)]

/-- HS after "abc" (95_test_vectors.md 2.5). -/
def abcHash : HashState :=
  #v[0xba7816bf#32, 0x8f01cfea#32, 0x414140de#32, 0x5dae2223#32,
    0xb00361a3#32, 0x96177a9c#32, 0xb410ff61#32, 0xf20015ad#32]

/-- The core after "abc" was finalised. -/
def finished : State := { State.reset with phase := .done, hs := abcHash, nbytes := 3#61, buf := abcBlock }

/-- The core after a length error. -/
def faulted : State :=
  { absorbing (2 ^ 61 - 1) [] with phase := .fault, errLen := true, raised := ⟨false, false, true⟩ }

/-- A block event of the padded "abc" block that is in a given micro-step. -/
def running (q : Seq) (c : Cont) : State := { absorbing 3 abcBlock with seq := q, cont := c }

/-- The working registers at the end of the "abc" block event (95_test_vectors.md 2.4). -/
def abcWorking : Working :=
  ⟨0x506e3058#32, 0xd39a2165#32, 0x04d24d6c#32, 0xb85e2ce9#32,
    0x5ef50f24#32, 0xfb121210#32, 0x948d25b6#32, 0x961f4894#32⟩

/-- A core with what the host drives next. -/
def driven (e : HostEdge) (s : State) : State := { s with inputs := [e] }

/-! ### Ill-formed lines are refused (30_encoding.md R59) -/

theorem test_update_256_refused :
    AsmLine.wellFormed (.update 256) = false ∧ assemble (.update 256) = .error .byteAbove255 := ⟨by decide, rfl⟩

theorem test_read_32_refused :
    AsmLine.wellFormed (.read 32) = false ∧ assemble (.read 32) = .error .indexAbove31 := ⟨by decide, rfl⟩

theorem test_word_0x800_refused :
    AsmLine.wellFormed (.word 0x800) = false ∧ assemble (.word 0x800) = .error .wordAbove0x7FF := ⟨by decide, rfl⟩

theorem test_largest_operands_well_formed :
    AsmLine.wellFormed (.update 255) = true ∧ AsmLine.wellFormed (.read 31) = true ∧
    AsmLine.wellFormed (.word 0x7FF) = true := by decide

/-! ### Decoding, from words written out by hand from R56's patterns -/

theorem test_decode_nop : decode 0b00000000000#11 = .nop ∧ decode 0b00011111111#11 = .nop := by decide
theorem test_decode_init : decode 0b00100000000#11 = .init ∧ decode 0b00110101011#11 = .init := by decide
theorem test_decode_update :
    decode 0b01001100001#11 = .update 0x61#8 ∧ decode 0b01010000000#11 = .update 0x80#8 := by decide
theorem test_decode_final : decode 0b01100000000#11 = .final ∧ decode 0b01111111111#11 = .final := by decide
theorem test_decode_read :
    decode 0b10011100101#11 = .read 5#5 ∧ decode 0b10000011111#11 = .read 31#5 := by decide
theorem test_decode_rdstat : decode 0b10100000000#11 = .rdstat ∧ decode 0b10111111111#11 = .rdstat := by decide
theorem test_decode_reserved6 : decode 0b11000000000#11 = .reserved6 ∧ decode 0b11011111111#11 = .reserved6 := by decide
theorem test_decode_reserved7 : decode 0b11100000000#11 = .reserved7 ∧ decode 0b11111111111#11 = .reserved7 := by decide

theorem test_decodeTableWord :
    decodeTableWord 16 0x261 = some (.update 0x61#8) ∧ decodeTableWord 11 0x4FF = some (.read 31#5) ∧
    decodeTableWord 16 0x800 = none := by decide

theorem test_wide_number_refused_by_name :
    decodeNat 0x800 = .error .widerThanElevenBits ∧ decodeNat 0x7FF = .ok .reserved7 := ⟨rfl, rfl⟩

theorem test_encode_words :
    encode .nop = 0x000#11 ∧ encode .init = 0x100#11 ∧ encode (.update 0x62#8) = 0x262#11 ∧ encode .final = 0x300#11 ∧
    encode (.read 31#5) = 0x41F#11 ∧ encode .rdstat = 0x500#11 ∧ encode .reserved6 = 0x600#11 ∧
    encode .reserved7 = 0x700#11 := by decide

/-! ### Command programs (R59, R60; 95_test_vectors.md 3) -/

theorem test_parse_mnemonics_any_case :
    parseLine "rdStat ; -> rsp 00 (IDLE)".toList = .ok (some .rdstat) ∧
    parseLine "UPDATE 0x61 ; 261".toList = .ok (some (.update 0x61)) ∧
    parseLine "update 'a'".toList = .ok (some (.update 0x61)) ∧ parseLine "  ; only a comment".toList = .ok none := by
  decide

theorem test_parse_word_and_read :
    parseLine ".word 0x4FF".toList = .ok (some (.word 0x4FF)) ∧ parseLine "READ 31".toList = .ok (some (.read 31)) ∧
    parseLine "READ".toList = .error .malformedLine := by decide

theorem test_parse_bytes :
    parseLine "UPDATES \"a\\x80;\"".toList = .ok (some (.updates [0x61#8, 0x80#8, 0x3b#8])) ∧
    parseLine "UPDATES \"\\x\"".toList = .error .malformedLine ∧
    parseLine "UPDATES \"\\y\"".toList = .ok (some (.updates [0x5c#8, 0x79#8])) := by decide

theorem test_assemble_hash :
    (assemble (.hash [0x61#8])).toOption.map (fun ws => (ws.take 4, ws.length)) =
      some ([0x100#11, 0x261#11, 0x300#11, 0x400#11], 35) := by decide

/-! ### Word datapath (95_test_vectors.md 2.1) -/

theorem test_rotr : rotr 0x12345678#32 2 = 0x048d159e#32 ∧ rotr 0x12345678#32 25 = 0x1a2b3c09#32 := by decide
theorem test_shr : shr 0x12345678#32 3 = 0x02468acf#32 ∧ shr 0x12345678#32 10 = 0x00048d15#32 := by decide
theorem test_bigS :
    bigS0 0x12345678#32 = 0x66146474#32 ∧ bigS1 0x12345678#32 = 0x3561abda#32 ∧
    bigS0 0x80000000#32 = 0x20040200#32 ∧ bigS1 0x00000001#32 = 0x04200080#32 := by decide
theorem test_smallS :
    smallS0 0x12345678#32 = 0xe7fce6ee#32 ∧ smallS1 0x12345678#32 = 0xa1f78649#32 ∧
    smallS0 0xffffffff#32 = 0x1fffffff#32 ∧ smallS1 0xffffffff#32 = 0x003fffff#32 := by decide
theorem test_ch_maj :
    ch 0xffff0000#32 0x12345678#32 0x9abcdef0#32 = 0x1234def0#32 ∧
    maj 0xf0f0f0f0#32 0xff00ff00#32 0x0f0f0f0f#32 = 0xff00ff00#32 := by decide
theorem test_add32_drops_carry : (0xbb67ae85#32 : Word) + 0xd39a2165#32 = 0x8f01cfea#32 := by decide

/-! ### Commands, one step each (95_test_vectors.md 2.8) -/

theorem test_nop_ends_response :
    shows (exec .nop { absorbing 5 [] with rspValid := true })
      (fun t => t.rspValid == false && t.nbytes == 5#61 && t.status == 0x02#8) = true := by decide

theorem test_init_leaves_fault :
    shows (exec .init faulted) (fun t => t.status == 0x02#8 && t.nbytes == 0#61 && t.hs == iv) = true := by
  decide

theorem test_update_stores_byte :
    shows (exec (.update 0x63#8) (absorbing 2 [(0, 0x61#8), (1, 0x62#8)]))
      (fun t => t.buf == abcBuf && t.nbytes == 3#61 && t.seq == .idle) = true ∧
    shows (exec (.update 0x80#8) (absorbing 63 []))
      (fun t => t.buf.read 63 == 0x80#8 && t.nbytes == 64#61 && t.seq == .load && t.cont == .absorb) = true := by
  decide

theorem test_final_pads_abc :
    shows (exec .final (absorbing 3 abcBuf))
      (fun t => t.buf == abcBlock && t.cont == .done && t.status == 0x03#8 && t.nbytes == 3#61) = true := by
  decide

theorem test_final_55_and_56 :
    shows (exec .final (absorbing 55 []))
      (fun t => t.buf == [(55, 0x80#8), (62, 0x01#8), (63, 0xb8#8)] && t.cont == .done) = true ∧
    shows (exec .final (absorbing 56 [])) (fun t => t.buf == [(56, 0x80#8)] && t.cont == .pad2) = true := by
  decide

theorem test_read_digest_bytes :
    shows (exec (.read 0#5) finished) (fun t => t.rspData == 0xba#8 && t.rspValid && t.status == 0x44#8) = true ∧
    shows (exec (.read 31#5) finished) (fun t => t.rspData == 0xad#8) = true := by decide

theorem test_read_before_done :
    shows (exec (.read 0#5) State.reset) (fun t => t.status == 0x08#8 && t.rspValid) = true := by decide

theorem test_rdstat :
    shows (exec .rdstat faulted) (fun t => t.rspData == 0x26#8 && t.rspValid && t.errLen) = true ∧
    shows (exec .rdstat finished) (fun t => t.rspData == 0x44#8) = true := by decide

theorem test_reserved_words :
    shows (exec .reserved6 (absorbing 5 [])) (fun t => t.status == 0x12#8 && t.nbytes == 5#61) = true ∧
    shows (exec .reserved7 State.reset) (fun t => t.status == 0x10#8) = true := by decide

theorem test_length_limit :
    shows (exec (.update 0x00#8) (absorbing (2 ^ 61 - 1) []))
      (fun t => t.status == 0x26#8 && t.nbytes == 2305843009213693951#61) = true ∧
    shows (exec (.update 0x00#8) (absorbing (2 ^ 61 - 2) []))
      (fun t => t.nbytes == 2305843009213693951#61 && t.seq == .idle && t.status == 0x02#8) = true := by decide

/-! ### Micro-steps (95_test_vectors.md 2.3 to 2.5) -/

theorem test_load :
    shows (step (running .load .done))
      (fun t => t.ws == Working.ofVector iv && t.w[0] == 0x61626380#32 && t.w[15] == 0x18#32 && t.seq == .round) =
      true := by decide

theorem test_round_0 :
    shows (sRound (sLoad (running .load .done)))
      (fun t => t.ws == ⟨0x5d6aebcd#32, 0x6a09e667#32, 0xbb67ae85#32, 0x3c6ef372#32,
        0xfa2a4622#32, 0x510e527f#32, 0x9b05688c#32, 0x1f83d9ab#32⟩ && t.rnd == 1#7) = true := by decide

theorem test_acc :
    shows (step { running .acc .done with ws := abcWorking, rnd := 64#7 })
      (fun t => t.hs == abcHash && t.status == 0x44#8) = true := by decide

theorem test_acc_second_block :
    shows (step { absorbing 56 [(56, 0x80#8)] with seq := .acc, cont := .pad2, rnd := 64#7 })
      (fun t => t.buf == [(62, 0x01#8), (63, 0xc0#8)] && t.cont == .done && t.seq == .load && t.phase == .absorb) =
      true := by decide

/-- K spot values (95_test_vectors.md 2.4). -/
theorem test_round_constants :
    kTable.length = 64 ∧ roundConstant 0 = 0x428a2f98#32 ∧ roundConstant 3 = 0xe9b5dba5#32 ∧
    roundConstant 63 = 0xc67178f2#32 := by decide

/-! ### The hash of whole messages, by the reference functions (95_test_vectors.md 1, 2.6) -/

theorem test_hash_empty :
    renderBytes (digestBytes (hashOf [])) = "E3B0C44298FC1C149AFBF4C8996FB92427AE41E4649B934CA495991B7852B855" := by
  decide +kernel

theorem test_hash_abc : hashOf [0x61#8, 0x62#8, 0x63#8] = abcHash := by decide +kernel

theorem test_hash_56_a :
    renderBytes (digestBytes (hashOf (List.replicate 56 0x61#8))) =
      "B35439A4AC6F0948B6D6F9E3C6AF0F5F590CE20F1BDE7090EF7970686EC6738A" := by decide +kernel

/-! ### The interface -/

theorem test_withFetchWord_runs :
    shows (step (State.reset.withFetchWord 16 0x100)) (fun t => t.phase == .absorb && t.inputs == []) = true ∧
    shows (step ((running .load .done).withFetchWord 16 0x500)) (fun t => t.rspValid && t.rspData == 0x02#8) = true := by
  decide

theorem test_reset_beats_command :
    shows (step (driven ⟨true, .hold 0x100#11⟩ (running .round .done)))
      (fun t => t.status == 0x00#8 && t.inputs == [⟨false, .hold 0x100#11⟩]) = true := by decide

theorem test_hold_while_busy :
    shows (step (driven ⟨false, .hold 0x500#11⟩ (running .load .done)))
      (fun t => t.inputs == [⟨false, .hold 0x500#11⟩] && t.seq == .round && t.rspValid == false) = true := by
  decide

/-! ### Witnesses of the statements' hypotheses, boundary values first -/

theorem witness_IgnoredBitsHaveNoEffect :
    (0x4E5#11 ^^^ 0x405#11) &&& ~~~ ignoredBits (decode 0x4E5#11) = 0x000#11 ∧
    (0x7FF#11 ^^^ 0x700#11) &&& ~~~ ignoredBits (decode 0x7FF#11) = 0x000#11 ∧
    (0x0FF#11 ^^^ 0x000#11) &&& ~~~ ignoredBits (decode 0x0FF#11) = 0x000#11 := by decide

theorem witness_AssemblerRefusesOutOfRange :
    255 ≤ 255 ∧ 31 ≤ 31 ∧ 0x7FF ≤ 0x7FF ∧ assemble (.read 31) = .ok [0x41F#11] ∧
    (∀ w, AsmLine.read 31 ≠ .word w) ∧ 0x41F#11 ∈ [0x41F#11] :=
  ⟨le_rfl, le_rfl, le_rfl, rfl, nofun, by decide⟩

theorem witness_RotateRightMovesBits : (1 ≤ 1 ∧ 1 ≤ 31 ∧ 31 < 32) ∧ 1 ≤ 31 ∧ 31 ≤ 31 ∧ 0 < 32 := by decide

theorem witness_ShiftRightIsLogical : (3 = 3 ∨ 3 = 10) ∧ (10 = 3 ∨ 10 = 10) := by decide

theorem witness_MixingFunctionsBitwise : (31 < 32 ∧ ¬ 31 + 3 < 32) ∧ 28 + 3 < 32 ∧ 21 + 10 < 32 := by decide

theorem witness_ChooseAndMajorityBitwise : 0 < 32 ∧ 31 < 32 := by decide

theorem witness_RoundConstantsAreCubeRoots : 0 < 64 ∧ 63 < 64 := by decide

theorem witness_CanonicalBufDeterminedByBytes :
    Memory.wf [(0, 1#8), (63, 2#8)] = true ∧
    Memory.wf (Memory.write (Memory.write [] 63 2#8) 0 1#8) = true ∧
    ∀ j < 64, Memory.read [(0, 1#8), (63, 2#8)] j =
      Memory.read (Memory.write (Memory.write [] 63 2#8) 0 1#8) j := by decide

theorem witness_ResetEdgeWins :
    (driven ⟨true, .hold 0x300#11⟩ (running .acc .pad2)).inputs = ⟨true, .hold 0x300#11⟩ :: [] ∧
    (driven ⟨true, .quiet⟩ finished).inputs = ⟨true, .quiet⟩ :: [] ∧ (∀ cw, Offer.quiet ≠ .hold cw) ∧
    (driven ⟨true, .once 0x300#11⟩ faulted).inputs = ⟨true, .once 0x300#11⟩ :: [] ∧
    ∀ cw, Offer.once 0x300#11 ≠ .hold cw := ⟨rfl, rfl, nofun, rfl, nofun⟩

theorem witness_NopChangesNothingElse :
    0x0FF#11 &&& 0x700#11 = 0x000#11 ∧ finished.seq = .idle ∧ faulted.seq = .idle := by decide

theorem witness_InitOpensComputation :
    0x1FF#11 &&& 0x700#11 = 0x100#11 ∧ State.reset.seq = .idle ∧ faulted.seq = .idle := by decide

theorem witness_UpdateCommand :
    0x2FF#11 &&& 0x700#11 = 0x200#11 ∧ (finished.seq = .idle ∧ finished.phase ≠ .absorb) ∧
    ((absorbing (2 ^ 61 - 1) []).seq = .idle ∧ (absorbing (2 ^ 61 - 1) []).phase = .absorb ∧
      (absorbing (2 ^ 61 - 1) []).nbytes.toNat = 2 ^ 61 - 1) ∧
    ((absorbing (2 ^ 61 - 2) []).seq = .idle ∧ (absorbing (2 ^ 61 - 2) []).phase = .absorb ∧
      (absorbing (2 ^ 61 - 2) []).nbytes.toNat < 2 ^ 61 - 1 ∧ (absorbing (2 ^ 61 - 2) []).buf.wf = true) ∧
    (absorbing 63 abcBuf).seq = .idle ∧ (absorbing 63 abcBuf).phase = .absorb ∧
      (absorbing 63 abcBuf).nbytes.toNat % 64 = 63 ∧ (absorbing 63 abcBuf).nbytes.toNat < 2 ^ 61 - 1 ∧
      (absorbing 63 abcBuf).buf.wf = true := by decide

theorem witness_UsageErrors :
    (finished.seq = .idle ∧ finished.phase ≠ .absorb) ∧ (faulted.seq = .idle ∧ faulted.phase ≠ .absorb) ∧
    (State.reset.seq = .idle ∧ State.reset.phase ≠ .absorb ∧ State.reset.phase ≠ .done) ∧
    ((Instr.update 0x61#8 = .final) ∨ ∃ b, Instr.update 0x61#8 = .update b) ∧
    (absorbing 3 abcBuf).seq = .idle ∧ (absorbing 3 abcBuf).phase ≠ .done :=
  ⟨by decide, by decide, by decide, .inr ⟨_, rfl⟩, by decide⟩

/-- The limit itself, the three commands in FAULT, and INIT as the way out. -/
theorem witness_LengthError :
    ((absorbing (2 ^ 61 - 1) []).seq = .idle ∧ (absorbing (2 ^ 61 - 1) []).phase = .absorb ∧
      (absorbing (2 ^ 61 - 1) []).nbytes.toNat = 2 ^ 61 - 1) ∧
    (faulted.seq = .idle ∧ faulted.phase = .fault) ∧
    State.Inv (driven ⟨false, .hold 0x100#11⟩ faulted) ∧ (driven ⟨false, .hold 0x100#11⟩ faulted).phase = .fault ∧
    shows (step (driven ⟨false, .hold 0x100#11⟩ faulted)) (fun t => t.phase != .fault) = true := by
  refine ⟨by decide, by decide, ?_, by decide, by decide⟩
  constructor <;> decide

/-- FILL = 0, 55, 56 and 63, and FINAL outside ABSORB. -/
theorem witness_FinalCommand :
    0x3FF#11 &&& 0x700#11 = 0x300#11 ∧ (finished.seq = .idle ∧ finished.phase ≠ .absorb) ∧
    hostHolds (absorbing 56 abcBuf).inputs ∧
    ∀ n ∈ [0, 55, 56, 63, 64, 2 ^ 61 - 1], (absorbing n abcBuf).seq = .idle ∧ (absorbing n abcBuf).phase = .absorb ∧
      (absorbing n abcBuf).buf.wf = true := ⟨by decide, by decide, .inl rfl, by decide⟩

theorem witness_ReadCommand :
    0x4FF#11 &&& 0x700#11 = 0x400#11 ∧ finished.seq = .idle ∧ finished.phase = .done ∧
    (0 < 4 ∧ (0#5).toNat = 4 * 0 + 0) ∧ (3 < 4 ∧ (31#5).toNat = 4 * 7 + 3) ∧
    (absorbing 3 abcBuf).seq = .idle ∧ (absorbing 3 abcBuf).phase ≠ .done := by decide

theorem witness_RdstatReportsStatus :
    0x5FF#11 &&& 0x700#11 = 0x500#11 ∧ faulted.seq = .idle ∧ (absorbing 3 abcBuf).seq = .idle := by decide

theorem witness_StatusLayout :
    State.reset.phase = .idle ∧ (running .round .done).phase = .absorb ∧ finished.phase = .done ∧
    faulted.phase = .fault := by decide

theorem witness_ReservedWordsAreIllegal :
    faulted.seq = .idle ∧ 0x600 ≤ (0x600#11).toNat ∧ 0x600 ≤ (0x7FF#11).toNat ∧
    (Instr.reserved7 = .reserved6 ∨ Instr.reserved7 = .reserved7) := by decide

theorem witness_FrameOfNonStoringCommands :
    ((∀ b, Instr.read 31#5 ≠ .update b) ∧ Instr.read 31#5 ≠ .final ∧ Instr.read 31#5 ≠ .init ∧
      finished.phase = .done ∧ ∃ t, exec (.read 31#5) finished = .next t) ∧
    ((∀ b, Instr.nop ≠ .update b) ∧ Instr.nop ≠ .final ∧ Instr.nop ≠ .init ∧ (∀ idx, Instr.nop ≠ .read idx) ∧
      Instr.nop ≠ .rdstat ∧ Instr.nop ≠ .reserved6 ∧ Instr.nop ≠ .reserved7 ∧ ∃ t, exec .nop faulted = .next t) ∧
    (∀ b, Instr.init ≠ .update b) ∧ Instr.init ≠ .final ∧ ∃ t, exec .init faulted = .next t :=
  ⟨⟨nofun, nofun, nofun, rfl, _, rfl⟩, ⟨nofun, nofun, nofun, nofun, nofun, nofun, nofun, _, rfl⟩, nofun, nofun, _, rfl⟩

/-- UPDATE that fills a block, UPDATE that is refused, FINAL at FILL = 63 and at FILL = 0. -/
theorem witness_FrameOfStoringCommands :
    ((absorbing 63 abcBuf).buf.wf = true ∧ (∃ t, exec (.update 0x80#8) (absorbing 63 abcBuf) = .next t) ∧
      62 ≠ (absorbing 63 abcBuf).nbytes.toNat % 64) ∧
    (finished.buf.wf = true ∧ finished.phase ≠ .absorb ∧ ∃ t, exec (.update 0x80#8) finished = .next t) ∧
    ((absorbing 63 abcBuf).buf.wf = true ∧ (∃ t, exec .final (absorbing 63 abcBuf) = .next t) ∧
      62 < (absorbing 63 abcBuf).nbytes.toNat % 64) ∧
    (absorbing 64 abcBuf).buf.wf = true ∧ (∃ t, exec .final (absorbing 64 abcBuf) = .next t) ∧ 64 ≤ 64 :=
  ⟨⟨by decide, ⟨_, rfl⟩, by decide⟩, ⟨by decide, by decide, ⟨_, rfl⟩⟩, ⟨by decide, ⟨_, rfl⟩, by decide⟩,
    by decide, ⟨_, rfl⟩, le_rfl⟩

theorem witness_IdempotentCommands :
    ((∀ b, Instr.read 0#5 ≠ .update b) ∧ Instr.read 0#5 ≠ .final ∧
      ((∃ idx, Instr.read 0#5 = .read idx) → finished.phase = .done) ∧ ∃ t, exec (.read 0#5) finished = .next t) ∧
    (∀ b, Instr.init ≠ .update b) ∧ Instr.init ≠ .final ∧ ((∃ idx, Instr.init = .read idx) → faulted.phase = .done) ∧
      ∃ t, exec .init faulted = .next t :=
  ⟨⟨nofun, nofun, fun _ => rfl, _, rfl⟩, nofun, nofun, nofun, _, rfl⟩

theorem witness_ResponseRegister :
    (finished.seq = .idle ∧ (∃ t, exec .rdstat finished = .next t) ∧ ∃ t, exec .nop finished = .next t) ∧
    (∃ t, step (running .acc .done) = .next t) ∧ ¬ resetComing (running .acc .done) ∧
      ∀ cw rest, ¬ accepts (running .acc .done) cw rest :=
  ⟨⟨rfl, ⟨_, rfl⟩, _, rfl⟩, ⟨_, rfl⟩, nofun, nofun⟩

theorem witness_StepRunsDecodedCommand :
    ((driven ⟨false, .hold 0x7FF#11⟩ faulted).inputs = ⟨false, .hold 0x7FF#11⟩ :: [] ∧ faulted.seq = .idle) ∧
    ((driven ⟨false, .once 0x300#11⟩ finished).inputs = ⟨false, .once 0x300#11⟩ :: [] ∧ finished.seq = .idle) ∧
    0x7FF < 2 ^ 11 := ⟨⟨rfl, rfl⟩, ⟨rfl, rfl⟩, by decide⟩

theorem witness_CommandHeldWhileBusy :
    (driven ⟨false, .hold 0x100#11⟩ (running .round .absorb)).inputs = ⟨false, .hold 0x100#11⟩ :: [] ∧
    (running .round .absorb).seq ≠ .idle ∧
    ∃ t, step (driven ⟨false, .hold 0x100#11⟩ (running .round .absorb)) = .next t := ⟨rfl, by decide, _, rfl⟩

theorem witness_WithdrawnCommandHasNoEffect :
    (driven ⟨false, .once 0x100#11⟩ (running .acc .done)).inputs = ⟨false, .once 0x100#11⟩ :: [] ∧
    (running .acc .done).seq ≠ .idle := ⟨rfl, by decide⟩

theorem witness_QuietCoreHoldsState :
    (finished.seq = .idle ∧ finished.inputs = []) ∧
    (driven ⟨false, .quiet⟩ faulted).inputs = ⟨false, .quiet⟩ :: [] := ⟨⟨rfl, rfl⟩, rfl⟩

theorem witness_DigestPort : finished.phase = .done ∧ faulted.phase ≠ .done := by decide

theorem witness_LoadMicroStep : (running .load .done).seq = .load ∧ ¬ resetComing (running .load .done) :=
  ⟨rfl, nofun⟩

/-- Rounds 0, 15, 16 and 63. -/
theorem witness_RoundMicroStep :
    ∀ j ∈ [0, 15, 16, 63], j < 64 ∧ State.seq { running .round .done with rnd := BitVec.ofNat 7 j } = .round ∧
      (State.rnd { running .round .done with rnd := BitVec.ofNat 7 j }).toNat = j ∧
      State.inputs { running .round .done with rnd := BitVec.ofNat 7 j } = [] := by decide

theorem witness_RoundMicroStep_noReset : ¬ resetComing { running .round .done with rnd := 63#7 } := nofun

theorem witness_AccumulateMicroStep :
    ∀ c : Cont, (running .acc c).seq = .acc ∧ ¬ resetComing (running .acc c) ∧ (running .acc c).buf.wf = true :=
  fun _ => ⟨rfl, nofun, rfl⟩

theorem witness_BlockEventComputesCompress :
    ((running .load .done).seq = .load ∧ hostHolds (running .load .done).inputs) ∧
    hostHolds (driven ⟨false, .hold 0x400#11⟩ (running .load .done)).inputs :=
  ⟨⟨rfl, .inl rfl⟩, .inr ⟨_, _, rfl⟩⟩

/-- No block event, one, and two. -/
theorem witness_BusyForItsBlockEvents :
    (State.reset.seq = .idle ∧ hostHolds State.reset.inputs ∧ blockEvents .init State.reset = 0 ∧
      ∃ t, exec .init State.reset = .next t) ∧
    ((absorbing 63 abcBuf).seq = .idle ∧ hostHolds (absorbing 63 abcBuf).inputs ∧
      blockEvents (.update 0x61#8) (absorbing 63 abcBuf) = 1 ∧
      ∃ t, exec (.update 0x61#8) (absorbing 63 abcBuf) = .next t) ∧
    (absorbing 56 abcBuf).seq = .idle ∧ hostHolds (absorbing 56 abcBuf).inputs ∧
      blockEvents .final (absorbing 56 abcBuf) = 2 ∧ ∃ t, exec .final (absorbing 56 abcBuf) = .next t :=
  ⟨⟨rfl, .inl rfl, rfl, _, rfl⟩, ⟨rfl, .inl rfl, by decide, _, rfl⟩, rfl, .inl rfl, by decide, _, rfl⟩

theorem inv_running_round : State.Inv { running .round .done with rnd := 63#7 } := by constructor <;> decide

theorem inv_acc_pad2 :
    State.Inv { absorbing 56 [(56, 0x80#8)] with seq := .acc, cont := .pad2, rnd := 64#7 } := by
  constructor <;> decide

theorem inv_faulted : State.Inv faulted := by constructor <;> decide

theorem witness_BlockEventsEnd :
    State.Inv { running .round .done with rnd := 63#7 } ∧
    hostHolds (State.inputs { running .round .done with rnd := 63#7 }) ∧
    State.Inv { absorbing 56 [(56, 0x80#8)] with seq := .acc, cont := .pad2, rnd := 64#7 } :=
  ⟨inv_running_round, .inl rfl, inv_acc_pad2⟩

theorem witness_StepKeepsControlInvariant :
    (State.Inv { running .round .done with rnd := 63#7 } ∧
      ∃ t, step { running .round .done with rnd := 63#7 } = .next t) ∧
    (State.Inv { absorbing 56 [(56, 0x80#8)] with seq := .acc, cont := .pad2, rnd := 64#7 } ∧
      ∃ t, step { absorbing 56 [(56, 0x80#8)] with seq := .acc, cont := .pad2, rnd := 64#7 } = .next t) ∧
    State.Inv faulted ∧ ∃ t, step faulted = .next t :=
  ⟨⟨inv_running_round, _, rfl⟩, ⟨inv_acc_pad2, _, rfl⟩, inv_faulted, _, rfl⟩

theorem witness_InvariantStateSteps : State.Inv { running .round .done with rnd := 63#7 } := inv_running_round

/-- A block event in its first round, on the padded "abc" block. -/
theorem witness_StepKeepsBlockProgress :
    (sLoad (running .load .done)).BlockProgress ∧ (sLoad (running .load .done)).seq = .round ∧
    ∃ t, step (sLoad (running .load .done)) = .next t := by
  refine ⟨⟨fun _ => by decide, fun _ => rfl, ?_, nofun, nofun⟩, rfl, _, rfl⟩
  intro _ j hj h
  have h16 : j < 16 := h.resolve_right (Nat.not_lt_zero j)
  rw [scheduleWord_load _ h16]
  exact (loadSchedule_getElem _ _ j hj).trans (if_pos h16)

theorem witness_RaisedRecordIsKept :
    (∃ t, step (driven ⟨false, .hold 0x100#11⟩ faulted) = .next t) ∧ faulted.raised.len = true ∧
    (∃ t, step (driven ⟨true, .quiet⟩ faulted) = .next t) := ⟨⟨_, rfl⟩, rfl, _, rfl⟩

/-- The four events that change PHASE: reset, INIT, the last S_ACC of FINAL, UPDATE at the limit. -/
theorem witness_PhaseChangesOnlyAt :
    shows (step (driven ⟨true, .quiet⟩ finished)) (fun t => t.phase != finished.phase) = true ∧
    shows (step (driven ⟨false, .hold 0x100#11⟩ finished)) (fun t => t.phase != finished.phase) = true ∧
    shows (step (running .acc .done)) (fun t => t.phase != Phase.absorb) = true ∧
    shows (step (driven ⟨false, .once 0x200#11⟩ (absorbing (2 ^ 61 - 1) []))) (fun t => t.phase != Phase.absorb) =
      true := by decide

/-- INIT and S_ACC, where HS does change. -/
theorem witness_HashStateChangesOnlyAt :
    ¬ resetComing { running .acc .absorb with ws := abcWorking } ∧
    shows (step { running .acc .absorb with ws := abcWorking }) (fun t => t.hs != iv) = true ∧
    State.inputs (driven ⟨false, .hold 0x100#11⟩ finished) = [⟨false, .hold 0x100#11⟩] ∧
    shows (step (driven ⟨false, .hold 0x100#11⟩ finished)) (fun t => t.hs != finished.hs) = true :=
  ⟨nofun, by decide, rfl, by decide⟩

theorem witness_ByteCountNeverWraps :
    ¬ resetComing (driven ⟨false, .hold 0x261#11⟩ (absorbing (2 ^ 61 - 2) [])) ∧
    (∃ t, step (driven ⟨false, .hold 0x261#11⟩ (absorbing (2 ^ 61 - 2) [])) = .next t) ∧
    ¬ resetComing (driven ⟨false, .hold 0x261#11⟩ (absorbing (2 ^ 61 - 1) [])) ∧
    ∃ t, step (driven ⟨false, .hold 0x261#11⟩ (absorbing (2 ^ 61 - 1) [])) = .next t := by
  refine ⟨?_, ⟨_, rfl⟩, ?_, _, rfl⟩ <;> (rintro ⟨e, rest, h, hr⟩; cases h; cases hr)

/-- RDSTAT keeps a flag that is set, INIT and reset clear it. -/
theorem witness_ErrorFlagsAreSticky :
    (¬ resetComing (driven ⟨false, .hold 0x500#11⟩ faulted) ∧
      (∀ cw rest, accepts (driven ⟨false, .hold 0x500#11⟩ faulted) cw rest → decode cw ≠ .init) ∧
      ∃ t, step (driven ⟨false, .hold 0x500#11⟩ faulted) = .next t) ∧
    ((∃ cw rest, accepts (driven ⟨false, .hold 0x100#11⟩ faulted) cw rest ∧ decode cw = .init) ∧
      ∃ t, step (driven ⟨false, .hold 0x100#11⟩ faulted) = .next t) ∧
    resetComing (driven ⟨true, .quiet⟩ faulted) ∧ ∃ t, step (driven ⟨true, .quiet⟩ faulted) = .next t := by
  refine ⟨⟨?_, ?_, _, rfl⟩, ⟨⟨0x100#11, [], ⟨rfl, _, rfl, rfl, rfl⟩, by decide⟩, _, rfl⟩, ⟨_, _, rfl, rfl⟩, _, rfl⟩
  · rintro ⟨e, rest, h, hr⟩
    cases h
    cases hr
  · rintro cw rest ⟨-, e, h, -, hw⟩
    cases h
    cases hw
    decide

theorem witness_AtMostOneErrorPerCommand :
    (∃ t, exec .reserved6 State.reset = .next t) ∧ (∃ t, exec .final State.reset = .next t) ∧
    ∃ t, exec (.update 0x00#8) (absorbing (2 ^ 61 - 1) []) = .next t := ⟨⟨_, rfl⟩, ⟨_, rfl⟩, _, rfl⟩

theorem witness_UpdatesCompressEagerly :
    State.seq { finished with inputs := issue (encode .init :: updatesWords [0x61#8]) } = .idle ∧
    (State.buf { finished with inputs := issue (encode .init :: updatesWords [0x61#8]) }).wf = true ∧
    [0x61#8].length < 2 ^ 61 := by decide

theorem witness_HashCommandStream :
    State.Inv { finished with inputs := issue (absorbWords [0x61#8] ++ readAllWords) } ∧
    State.Inv { running .round .done with rnd := 63#7, inputs := issue (absorbWords [0x61#8] ++ readAllWords) } ∧
    [0x61#8].length < 2 ^ 61 := by
  refine ⟨?_, ?_, by decide⟩ <;> constructor <;> decide

theorem witness_InstancesShareNothing :
    (∃ after, platformStep (platformReset 2) 0 = .next after) ∧ (0 : Fin 2) ≠ 1 ∧
    ∃ p q, platformStep (platformReset 2) 0 = .next p ∧ platformStep p 1 = .next q :=
  ⟨⟨_, rfl⟩, by decide, _, _, rfl, rfl⟩

/-- The last micro-step of a block event, under a host that offers a command for one edge, and under a quiet one. -/
theorem witness_BusyCoreIgnoresHost :
    (∀ m < 1, ∃ u, runSteps m { running .acc .done with inputs := [] } = .next u ∧ u.busy = true) ∧
    (∃ t, runSteps 1 { running .acc .done with inputs := [] } = .next t) ∧
    (∀ e ∈ (driven ⟨false, .once 0x100#11⟩ (running .acc .done)).inputs.take 1, e.rst = false) ∧
    ∀ e ∈ (driven ⟨false, .quiet⟩ (running .acc .done)).inputs.take 1, e.rst = false := by
  refine ⟨fun m hm => ?_, ⟨_, rfl⟩, by decide, by decide⟩
  obtain rfl : m = 0 := by omega
  exact ⟨_, rfl, rfl⟩

/-- A pause before the command and one after it. -/
theorem witness_GapsBetweenCommands :
    ([⟨false, .quiet⟩, ⟨false, .hold 0x100#11⟩, ⟨false, .quiet⟩].filter fun e => e != (⟨false, .quiet⟩ : HostEdge)) =
      issue [0x100#11] ∧
    ∃ t, runSteps 1 { finished with inputs := issue [0x100#11] } = .next t := ⟨by decide, _, rfl⟩

end Sys2Proof.Tests
end

/-! ## Proofs about the state (10_state.md)

What an accepted command can do is said once, as the relation `CommandOutcome`, and what a micro-step keeps once, as
`microStep_keeps`; each rule about a register is then a case analysis over `step_next`. -/

namespace Sys2Proof.Machine

/-! ### What an accepted command does -/

/-- What an accepted command can make of the state, before RSP_VALID is set. -/
inductive CommandOutcome (s : State) : Instr → State → Prop where
  /-- NOP (R103). -/
  | holds : CommandOutcome s .nop s
  /-- INIT (R104). -/
  | opens : CommandOutcome s .init (openComputation s)
  /-- UPDATE below the limit (R76, R105). -/
  | absorbs (b : Byte) (habsorb : s.phase = .absorb) (hbelow : s.nbytes ≠ Config.maxMsgBytes) :
      CommandOutcome s (.update b) (absorbByte b s)
  /-- UPDATE at the limit (R116). -/
  | overflows (b : Byte) (habsorb : s.phase = .absorb) (hlimit : s.nbytes = Config.maxMsgBytes) :
      CommandOutcome s (.update b) (raise .len s)
  /-- FINAL (R106). -/
  | pads : CommandOutcome s .final (finalPad s)
  /-- READ in DONE and RDSTAT (R107, R108). -/
  | answers (i : Instr) (d : Byte) (hresp : responds i = true) : CommandOutcome s i { s with rspData := d }
  /-- READ outside DONE (R107). -/
  | misreads (idx : BitVec 5) : CommandOutcome s (.read idx) (drawRspData (raise .usage s))
  /-- ERR_USAGE or ERR_ILLEGAL, with no response (R114, R115). -/
  | discards (i : Instr) (e : CmdError) (hquiet : responds i = false) (hlen : e ≠ .len) :
      CommandOutcome s i (raise e s)

theorem commandEffect_outcome (i : Instr) (s : State) : CommandOutcome s i (commandEffect i s) := by
  cases i with
  | nop => exact .holds
  | init => exact .opens
  | update b =>
    show CommandOutcome s _ (updateEffect b s)
    obtain ⟨-, h⟩ | ⟨hp, hn, h⟩ | ⟨hp, hn, h⟩ := updateEffect_cases b s <;> rw [h]
    · exact .discards _ _ rfl nofun
    · exact .overflows b hp hn
    · exact .absorbs b hp hn
  | final =>
    show CommandOutcome s _ (finalEffect s)
    obtain ⟨-, h⟩ | ⟨-, h⟩ := finalEffect_cases s <;> rw [h]
    · exact .discards _ _ rfl nofun
    · exact .pads
  | read idx =>
    show CommandOutcome s _ (readEffect idx s)
    obtain ⟨-, h⟩ | ⟨-, h⟩ := readEffect_cases idx s <;> rw [h]
    · exact .misreads idx
    · exact .answers _ _ rfl
  | rdstat => exact .answers _ _ rfl
  | reserved6 => exact .discards _ _ rfl nofun
  | reserved7 => exact .discards _ _ rfl nofun

theorem responds_iff (i : Instr) : responds i = true ↔ (∃ idx, i = .read idx) ∨ i = .rdstat := by
  cases i <;> simp [responds]

/-- Below the limit NBYTES counts a byte without a wrap (R25). -/
theorem toNat_succ_of_ne_maxMsgBytes {n : BitVec 61} (h : n ≠ Config.maxMsgBytes) :
    (n + 1#61).toNat = n.toNat + 1 := by
  unfold Config.maxMsgBytes at h
  bv_omega

namespace CommandOutcome

variable {s t : State} {i : Instr}

/-- RSP_DATA is written only by a command that answers (R27). -/
theorem rspData_eq (h : CommandOutcome s i t) (hq : responds i = false) : t.rspData = s.rspData := by
  cases h with
  | answers _ _ hr => rw [hr] at hq; cases hq
  | misreads => cases hq
  | _ => simp

/-- INIT is the only command that writes HS (R21). -/
theorem hs_cases (h : CommandOutcome s i t) : t.hs = s.hs ∨ (t.hs = iv ∧ i = .init) := by
  cases h with
  | opens => exact .inr ⟨rfl, rfl⟩
  | _ => simp

/-- INIT and an UPDATE below the limit are the only commands that write NBYTES (R25). -/
theorem nbytes_cases (h : CommandOutcome s i t) :
    t.nbytes = s.nbytes ∨ (t.nbytes = 0#61 ∧ i = .init) ∨
    (t.nbytes.toNat = s.nbytes.toNat + 1 ∧ s.phase = .absorb ∧ ∃ b, i = .update b) := by
  cases h with
  | opens => exact .inr (.inl ⟨rfl, rfl⟩)
  | absorbs b hp hn =>
    refine .inr (.inr ⟨?_, hp, b, rfl⟩)
    rw [absorbByte_nbytes, toNat_succ_of_ne_maxMsgBytes hn]
  | _ => simp

/-- INIT and an UPDATE at the limit are the only commands that write PHASE (R17). -/
theorem phase_cases (h : CommandOutcome s i t) :
    t.phase = s.phase ∨ (t.phase = .absorb ∧ i = .init) ∨
    (t.phase = .fault ∧ s.phase = .absorb ∧ s.nbytes.toNat = 2 ^ 61 - 1 ∧ ∃ b, i = .update b) := by
  cases h with
  | opens => exact .inr (.inl ⟨rfl, rfl⟩)
  | overflows b hp hn => exact .inr (.inr ⟨rfl, hp, by rw [hn]; rfl, b, rfl⟩)
  | discards _ e _ hlen => exact .inl (by rw [raise_phase, if_neg hlen])
  | _ => simp

end CommandOutcome

/-! ### What a micro-step does -/

/-- A field that S_LOAD, S_ROUND and S_ACC keep is left as it was by a micro-step. -/
theorem microStep_keeps {α : Type} (field : State → α) (hload : ∀ s, field (sLoad s) = field s)
    (hround : ∀ j hj s, field (roundStep j hj s) = field s) (hacc : ∀ s, field (sAcc s) = field s)
    {s t : State} (h : microStep s = .next t) : field t = field s := by
  obtain ⟨-, rfl⟩ | ⟨-, rfl⟩ | ⟨hj, -, rfl⟩ | ⟨-, rfl⟩ := microStep_next h
  · rfl
  · exact hload s
  · exact hround _ hj s
  · exact hacc s

theorem microStep_rspValid {s t : State} (h : microStep s = .next t) : t.rspValid = s.rspValid :=
  microStep_keeps State.rspValid sLoad_rspValid roundStep_rspValid sAcc_rspValid h

theorem microStep_rspData {s t : State} (h : microStep s = .next t) : t.rspData = s.rspData :=
  microStep_keeps State.rspData sLoad_rspData roundStep_rspData sAcc_rspData h

theorem microStep_nbytes {s t : State} (h : microStep s = .next t) : t.nbytes = s.nbytes :=
  microStep_keeps State.nbytes sLoad_nbytes roundStep_nbytes sAcc_nbytes h

/-- S_ACC is the only micro-step that writes HS (R21, R93). -/
theorem microStep_hs_cases {s t : State} (h : microStep s = .next t) :
    t.hs = s.hs ∨ (t.hs = accumulate s.hs s.ws ∧ s.seq = .acc) := by
  obtain ⟨-, rfl⟩ | ⟨-, rfl⟩ | ⟨hj, -, rfl⟩ | ⟨hq, rfl⟩ := microStep_next h
  · exact .inl rfl
  · exact .inl (sLoad_hs s)
  · exact .inl (roundStep_hs _ hj s)
  · exact .inr ⟨sAcc_hs s, hq⟩

/-- S_ACC with CONT = C_DONE is the only micro-step that writes PHASE (R17, R94). -/
theorem microStep_phase_cases {s t : State} (h : microStep s = .next t) :
    t.phase = s.phase ∨ (t.phase = .done ∧ s.seq = .acc ∧ s.cont = .done) := by
  obtain ⟨-, rfl⟩ | ⟨-, rfl⟩ | ⟨hj, -, rfl⟩ | ⟨hq, rfl⟩ := microStep_next h
  · exact .inl rfl
  · exact .inl (sLoad_phase s)
  · exact .inl (roundStep_phase _ hj s)
  · by_cases hc : s.cont = .done
    · exact .inr ⟨by rw [sAcc_phase, if_pos hc], hq, hc⟩
    · exact .inl (by rw [sAcc_phase, if_neg hc])

/-! ### What a step does -/

/-- What a step that is no reset edge can do, the host's edges apart: it accepts a command, holds the state, or takes
a micro-step. -/
theorem step_next_noReset {s t : State} (h : step s = .next t) (hr : ¬ resetComing s) :
    (∃ cw rest u, accepts s cw rest ∧ CommandOutcome { s with inputs := rest } (decode cw) u ∧
      t = { u with rspValid := responds (decode cw) }) ∨
    (∃ rest, t = { s with inputs := rest }) ∨
    ∃ rest, microStep { s with inputs := rest } = .next t := by
  obtain ⟨e, rest, hin, he, -⟩ | ⟨cw, rest, hacc, rfl⟩ | ⟨-, rest, rfl⟩ | ⟨-, -, rest, hm⟩ := step_next h
  · exact absurd ⟨e, rest, hin, he⟩ hr
  · exact .inl ⟨cw, rest, _, hacc, commandEffect_outcome _ _, rfl⟩
  · exact .inr (.inl ⟨rest, rfl⟩)
  · exact .inr (.inr ⟨rest, hm⟩)

/-- At a reset edge PHASE becomes IDLE (R17, R132). -/
theorem step_phase_of_reset {s t : State} (h : step s = .next t) (hr : resetComing s) : t.phase = .idle := by
  obtain ⟨e, rest, hin, he⟩ := hr
  simp only [step, clockEdge, hin, edgeWith, he, if_true] at h
  cases h
  rfl

/-! ### The obligations -/

/-- Settles O28: the response register follows the accepted command, and no other step but reset writes it. -/
theorem responseRegister : Obligations.ResponseRegister := by
  unfold Obligations.ResponseRegister
  refine ⟨fun i s t hidle h => ?_, fun s t h hr hna => ?_, fun _ _ => ⟨rfl, rfl⟩⟩
  · rw [exec_of_ready ((not_busy_iff s).mpr hidle)] at h
    cases h
    refine ⟨fun hi => (responds_iff i).mpr hi, fun hread hstat => ?_⟩
    have hq : responds i = false := by
      rw [← Bool.not_eq_true, responds_iff]
      rintro (⟨idx, hi⟩ | hi)
      · exact hread idx hi
      · exact hstat hi
    exact ⟨hq, (commandEffect_outcome i s).rspData_eq hq⟩
  · obtain ⟨cw, rest, -, hacc, -⟩ | ⟨rest, rfl⟩ | ⟨rest, hm⟩ := step_next_noReset h hr
    · exact absurd hacc (hna cw rest)
    · exact ⟨rfl, rfl⟩
    · exact ⟨(microStep_rspValid hm :), (microStep_rspData hm :)⟩

/-- Settles O46: the events of R17's last column are the only ones that change PHASE. -/
theorem phaseChangesOnlyAt : Obligations.PhaseChangesOnlyAt := by
  unfold Obligations.PhaseChangesOnlyAt
  refine ⟨⟨rfl, rfl, rfl, rfl⟩, fun s t h hne => ?_⟩
  by_cases hr : resetComing s
  · exact .inl ⟨step_phase_of_reset h hr, hr⟩
  obtain ⟨cw, rest, u, hacc, hu, rfl⟩ | ⟨rest, rfl⟩ | ⟨rest, hm⟩ := step_next_noReset h hr
  · obtain heq | ⟨hp, hi⟩ | ⟨hp, habsorb, hlimit, b, hi⟩ := hu.phase_cases
    · exact absurd heq hne
    · exact .inr (.inl ⟨hp, cw, rest, hacc, hi⟩)
    · exact .inr (.inr (.inr ⟨hp, habsorb, hlimit, cw, rest, b, hacc, hi⟩))
  · exact absurd rfl hne
  · obtain heq | hdone := microStep_phase_cases hm
    · exact absurd heq hne
    · exact .inr (.inr (.inl hdone))

/-- Settles O47: INIT loads HS, S_ACC adds to it, and every other step but reset leaves it. -/
theorem hashStateChangesOnlyAt : Obligations.HashStateChangesOnlyAt := by
  unfold Obligations.HashStateChangesOnlyAt
  intro s t h hr
  obtain ⟨cw, rest, u, hacc, hu, rfl⟩ | ⟨rest, rfl⟩ | ⟨rest, hm⟩ := step_next_noReset h hr
  · obtain heq | ⟨hiv, hi⟩ := hu.hs_cases
    · exact .inl heq
    · exact .inr (.inl ⟨hiv, cw, rest, hacc, hi⟩)
  · exact .inl rfl
  · exact (microStep_hs_cases hm).imp_right .inr

/-- Settles O48: INIT clears NBYTES, UPDATE below the limit counts one, and every other step but reset leaves it. -/
theorem byteCountNeverWraps : Obligations.ByteCountNeverWraps := by
  unfold Obligations.ByteCountNeverWraps
  refine ⟨fun s t h hr => ?_, fun s => ⟨s.fill_eq, len64_toNat s.nbytes⟩⟩
  obtain ⟨cw, rest, u, hacc, hu, rfl⟩ | ⟨rest, rfl⟩ | ⟨rest, hm⟩ := step_next_noReset h hr
  · obtain heq | ⟨h0, hi⟩ | ⟨hsucc, habsorb, b, hi⟩ := hu.nbytes_cases
    · exact .inl heq
    · exact .inr (.inl ⟨h0, cw, rest, hacc, hi⟩)
    · exact .inr (.inr ⟨hsucc, habsorb, cw, rest, b, hacc, hi⟩)
  · exact .inl rfl
  · exact .inl (microStep_nbytes hm :)

end Sys2Proof.Machine

/-! ## Proofs about BUF and W (20_memory.md) -/

namespace Sys2Proof.Machine

/-- S_LOAD assembles the first sixteen schedule words from BUF (R36, R82). -/
theorem loadSchedule_of_lt (buf : Memory) (w : Vector Word 64) {j : Nat} (h16 : j < 16) :
    (loadSchedule buf w)[j] = beWord buf.read (4 * j) :=
  (loadSchedule_getElem buf w j (by omega)).trans (if_pos h16)

/-- S_LOAD leaves the other schedule words (R82). -/
theorem loadSchedule_of_le (buf : Memory) (w : Vector Word 64) {j : Nat} (hj : j < 64) (h16 : 16 ≤ j) :
    (loadSchedule buf w)[j] = w[j] :=
  (loadSchedule_getElem buf w j hj).trans (if_neg (by omega))

/-- Settles O34: with no reset coming the step is S_LOAD, whatever edge the host drives. -/
theorem loadMicroStep : Obligations.LoadMicroStep := by
  unfold Obligations.LoadMicroStep
  intro s hload hr
  have hbusy : s.seq ≠ .idle := by rw [hload]; nofun
  obtain ⟨rest, hstep⟩ := step_of_busy_noReset hbusy hr
  refine ⟨sLoad { s with inputs := rest }, hstep.trans (microStep_of_load hload), rfl,
    fun j hj => ?_, fun j hj h16 => ?_⟩
  · exact (congrArg BitVec.toNat (loadSchedule_of_lt s.buf s.w hj)).trans (beWord_toNat _ _)
  · exact loadSchedule_of_le s.buf s.w hj h16

end Sys2Proof.Machine

/-! ## Proofs about the command words (30_encoding.md) -/

namespace Sys2Proof

/-- Two words have the same bits wherever the mask has a 0, as R55 says it of the ignored bits. -/
def AgreeOutside {w : Nat} (mask x y : BitVec w) : Prop :=
  ∀ k, mask.getLsbD k = false → x.getLsbD k = y.getLsbD k

namespace AgreeOutside

variable {w : Nat} {mask x y : BitVec w}

/-- Words agree outside a mask when their difference lies within it. -/
theorem of_xor (h : (x ^^^ y) &&& ~~~ mask = 0#w) : AgreeOutside mask x y := by
  intro k hk
  by_cases hlt : k < w
  · have hbit := congrArg (fun v => v.getLsbD k) h
    simpa [-BitVec.getLsbD_eq_getElem, hlt, hk] using hbit
  · rw [BitVec.getLsbD_of_ge x k (by omega), BitVec.getLsbD_of_ge y k (by omega)]

/-- Words that agree outside the empty mask are equal. -/
theorem eq_of_mask_zero (h : AgreeOutside 0#w x y) : x = y :=
  BitVec.eq_of_getLsbD_eq fun k _ => h k BitVec.getLsbD_zero

/-- A field of two words agrees outside the same field of the mask. -/
theorem field (h : AgreeOutside mask x y) (start len : Nat) :
    AgreeOutside (mask.extractLsb' start len) (x.extractLsb' start len) (y.extractLsb' start len) := by
  intro k hk
  simp only [BitVec.getLsbD_extractLsb'] at hk ⊢
  by_cases hlt : k < len
  · rw [h (start + k) (by simpa [hlt] using hk)]
  · simp [hlt]

end AgreeOutside

/-- No command ignores a bit of OP (R54). -/
theorem opField_ignoredBits (i : Instr) : opField (ignoredBits i) = 0#3 := by
  cases i <;> simp [ignoredBits, opField]

/-- READ ignores no bit of IDX (R54). -/
theorem idxOperand_ignoredBits (idx : BitVec 5) : idxOperand (dataField (ignoredBits (.read idx))) = 0#5 := by
  simp [ignoredBits, dataField, idxOperand]

/-- Under one OP, DATA values that differ only in bits the command ignores give one command (R54, R55): UPDATE takes
all of DATA, READ its low five bits, and every other command nothing. -/
theorem decodeFields_congr {op : BitVec 3} {data data' : Byte}
    (h : AgreeOutside (dataField (ignoredBits (decodeFields op data))) data data') :
    decodeFields op data = decodeFields op data' := by
  unfold decodeFields at h ⊢
  generalize op.toFin = row at h ⊢
  match row with
  | 0 | 1 | 3 | 5 | 6 | 7 => rfl
  | 2 =>
    have hbyte : AgreeOutside 0#8 (byteOperand data) (byteOperand data') := h
    exact congrArg Instr.update hbyte.eq_of_mask_zero
  | 4 =>
    have hidx : AgreeOutside (idxOperand (dataField (ignoredBits (.read (idxOperand data))))) (idxOperand data)
        (idxOperand data') := h.field 0 5
    rw [idxOperand_ignoredBits] at hidx
    exact congrArg Instr.read hidx.eq_of_mask_zero

/-- Words that differ only in bits the first one's command ignores decode to one command (R55). -/
theorem decode_congr {cw cw' : CmdWord} (h : AgreeOutside (ignoredBits (decode cw)) cw cw') :
    decode cw = decode cw' := by
  have hop : opField cw = opField cw' := by
    have hfield : AgreeOutside (opField (ignoredBits (decode cw))) (opField cw) (opField cw') := h.field 8 3
    rw [opField_ignoredBits] at hfield
    exact hfield.eq_of_mask_zero
  have hdata : decodeFields (opField cw) (dataField cw) = decodeFields (opField cw) (dataField cw') :=
    decodeFields_congr (h.field 0 8)
  exact hdata.trans (congrArg (decodeFields · (dataField cw')) hop)

/-- The canonical word of every command lies in the command's row, with zeros in the ignored bits (R55, R56). -/
theorem canonicalWord : ∀ i : Instr, Laws.CanonicalWord.Statement i
  | .nop => Laws.CanonicalWord.nop
  | .init => Laws.CanonicalWord.init
  | .update byte => Laws.CanonicalWord.update byte
  | .final => Laws.CanonicalWord.final
  | .read idx => Laws.CanonicalWord.read idx
  | .rdstat => Laws.CanonicalWord.rdstat
  | .reserved6 => Laws.CanonicalWord.reserved6
  | .reserved7 => Laws.CanonicalWord.reserved7

/-- Settles O3: words that agree outside the ignored bits decode to one command, so `exec` cannot tell them apart. -/
theorem ignoredBitsHaveNoEffect : Obligations.IgnoredBitsHaveNoEffect := by
  unfold Obligations.IgnoredBitsHaveNoEffect
  refine ⟨fun cw cw' h => ?_, fun i => (canonicalWord i).2⟩
  have hdecode : decode cw = decode cw' := decode_congr (.of_xor h)
  exact ⟨hdecode, fun s => congrArg (Machine.exec · s) hdecode⟩

end Sys2Proof

/-! ## Proofs about the word datapath (40_word_arithmetic.md)

`shr_getLsbD` and `rotr_getLsbD` say where each bit of a shift and of a rotation comes from; the mixing functions are
XORs of these. -/

namespace Sys2Proof.Machine

/-! ### Shift and rotation -/

theorem shr_toNat (x : Word) (n : Nat) : (shr x n).toNat = x.toNat / 2 ^ n :=
  (BitVec.toNat_ushiftRight x n).trans (Nat.shiftRight_eq_div_pow _ _)

/-- A shift brings zeros in at the top (R63). -/
theorem shr_getLsbD (x : Word) (n i : Nat) :
    (shr x n).getLsbD i = (decide (i + n < 32) && x.getLsbD (i + n)) := by
  have hshift : (shr x n).getLsbD i = x.getLsbD (i + n) := by
    rw [shr, BitVec.getLsbD_ushiftRight, Nat.add_comm]
  by_cases hin : i + n < 32
  · rw [hshift, decide_eq_true hin, Bool.true_and]
  · rw [hshift, decide_eq_false hin, Bool.false_and, BitVec.getLsbD_of_ge x _ (by omega)]

/-- The two halves of a rotation do not overlap: below bit 32 - n a bit comes from the right shift, and from there on
from the left shift (R62). -/
theorem rotr_getLsbD (x : Word) {n i : Nat} (hn : n ≤ 31) (hi : i < 32) :
    (rotr x n).getLsbD i = x.getLsbD ((i + n) % 32) := by
  rw [rotr, BitVec.getLsbD_or, shr_getLsbD, BitVec.getLsbD_shiftLeft]
  by_cases hlow : i + n < 32
  · have hbelow : i < 32 - n := by omega
    simp [-BitVec.getLsbD_eq_getElem, hlow, hbelow, Nat.mod_eq_of_lt hlow]
  · have habove : ¬ i < 32 - n := by omega
    have hwrap : (i + n) % 32 = i - (32 - n) := by omega
    simp [-BitVec.getLsbD_eq_getElem, hlow, hi, habove, hwrap]

/-! ### Choose and majority -/

theorem ch_getLsbD (e f g : Word) {i : Nat} (hi : i < 32) :
    (ch e f g).getLsbD i = if e.getLsbD i then f.getLsbD i else g.getLsbD i := by
  rw [ch, BitVec.getLsbD_xor, BitVec.getLsbD_and, BitVec.getLsbD_and, BitVec.getLsbD_not, decide_eq_true hi]
  cases e.getLsbD i <;> simp

/-- The XOR of the pairwise conjunctions of three bits is their majority. -/
theorem xor_and_eq_majority :
    ∀ p q r : Bool, ((p && q) ^^ (p && r) ^^ (q && r)) = decide (2 ≤ p.toNat + q.toNat + r.toNat) := by
  decide

theorem maj_getLsbD (a b c : Word) (i : Nat) :
    (maj a b c).getLsbD i = decide (2 ≤ (a.getLsbD i).toNat + (b.getLsbD i).toNat + (c.getLsbD i).toNat) := by
  rw [← xor_and_eq_majority]
  simp only [maj, BitVec.getLsbD_xor, BitVec.getLsbD_and]

/-! ### The obligations -/

/-- Settles O9: an XOR of Words is taken bit by bit, and each term moves its bits as its own lemma says. -/
theorem mixingFunctionsBitwise : Obligations.MixingFunctionsBitwise := by
  unfold Obligations.MixingFunctionsBitwise
  intro x i hi
  refine ⟨?_, ?_, ?_, ?_⟩
  · simp (disch := omega) only [bigS0, BitVec.getLsbD_xor, rotr_getLsbD]
  · simp (disch := omega) only [bigS1, BitVec.getLsbD_xor, rotr_getLsbD]
  · simp (disch := omega) only [smallS0, BitVec.getLsbD_xor, rotr_getLsbD, shr_getLsbD]
  · simp (disch := omega) only [smallS1, BitVec.getLsbD_xor, rotr_getLsbD, shr_getLsbD]

/-- Settles O7: the lower bound on the amount is not needed, since the formula gives x for amount 0. -/
theorem rotateRightMovesBits : Obligations.RotateRightMovesBits := by
  unfold Obligations.RotateRightMovesBits
  intro x n _ hn i hi
  exact rotr_getLsbD x hn hi

/-- Settles O8: the law holds for every amount. -/
theorem shiftRightIsLogical : Obligations.ShiftRightIsLogical := by
  unfold Obligations.ShiftRightIsLogical
  intro x n _
  exact shr_toNat x n

/-- Settles O10, by the truth table of each function at one bit. -/
theorem chooseAndMajorityBitwise : Obligations.ChooseAndMajorityBitwise := by
  unfold Obligations.ChooseAndMajorityBitwise
  intro x y z i hi
  exact ⟨ch_getLsbD x y z hi, maj_getLsbD x y z i⟩

end Sys2Proof.Machine

/-! ## Proofs about the padder (41_padder.md)

What a command does to the whole state is stated as one update per command. A run of block events is stated as
`BusyRun`, which is built step by step along S_LOAD, the 64 rounds and S_ACC and composed by `BusyRun.trans`. -/

namespace Sys2Proof

/-- A word whose OP bits are those of `op` decodes to that row, with its own DATA (30_encoding.md R52, R53). -/
theorem decode_of_opBits {cw : CmdWord} {op : BitVec 3} (h : cw &&& 0x700#11 = commandWord op 0#8) :
    decode cw = decodeFields op (dataField cw) := by
  have hop : opField (cw &&& 0x700#11) = opField cw := by
    unfold opField
    rw [BitVec.extractLsb'_and]
    exact BitVec.and_allOnes
  rw [decode, ← hop, h, opField_commandWord]

end Sys2Proof

namespace Sys2Proof.Machine

/-! ### The padded message (R72, R73) -/

theorem pad_length (msg : List Byte) : (pad msg).length = msg.length + 9 + padZeros msg.length := by
  simp only [pad, List.length_append, List.length_replicate, List.length_singleton, be64_length]
  omega

/-- The zero bytes fill the last block (R72, R73). -/
theorem pad_length_eq_numBlocks (msg : List Byte) : (pad msg).length = 64 * numBlocks msg.length := by
  rw [pad_length, padZeros_eq, numBlocks]
  omega

/-- Settles O51: the length is a sum of four parts, and z makes it 64 bytes for each of the NB(L) blocks. -/
theorem padProperties : Obligations.PadProperties := by
  unfold Obligations.PadProperties
  refine ⟨fun msg => ?_, rfl, rfl⟩
  have hlen := pad_length msg
  have hblocks := pad_length_eq_numBlocks msg
  exact ⟨hlen, by omega, by omega, hblocks⟩

/-! ### One update of the state per command -/

theorem exec_of_idle {s : State} (h : s.seq = .idle) (i : Instr) :
    exec i s = .next { commandEffect i s with rspValid := responds i } :=
  exec_of_ready ((not_busy_iff s).mpr h)

theorem exec_update_of_idle {s : State} (h : s.seq = .idle) (b : Byte) :
    exec (.update b) s = .next { updateEffect b s with rspValid := false } := exec_of_idle h _

theorem exec_final_of_idle {s : State} (h : s.seq = .idle) :
    exec .final s = .next { finalEffect s with rspValid := false } := exec_of_idle h _

theorem raise_usage_eq (s : State) :
    raise .usage s = { s with errUsage := true, raised := { s.raised with usage := true } } := rfl

theorem raise_len_eq (s : State) :
    raise .len s = { s with errLen := true, phase := .fault, raised := { s.raised with len := true } } := rfl

theorem updateEffect_of_not_absorb {s : State} (hp : s.phase ≠ .absorb) (b : Byte) :
    updateEffect b s = raise .usage s := if_pos hp

theorem updateEffect_of_limit {s : State} (hp : s.phase = .absorb) (hn : s.nbytes = Config.maxMsgBytes) (b : Byte) :
    updateEffect b s = raise .len s := (if_neg (not_not.mpr hp)).trans (if_pos hn)

theorem updateEffect_of_below {s : State} (hp : s.phase = .absorb) (hn : s.nbytes ≠ Config.maxMsgBytes) (b : Byte) :
    updateEffect b s = absorbByte b s := (if_neg (not_not.mpr hp)).trans (if_neg hn)

theorem finalEffect_of_not_absorb {s : State} (hp : s.phase ≠ .absorb) : finalEffect s = raise .usage s := if_pos hp

theorem finalEffect_of_absorb {s : State} (hp : s.phase = .absorb) : finalEffect s = finalPad s :=
  if_neg (not_not.mpr hp)

/-- The limit of NBYTES as a number (R72). -/
theorem eq_maxMsgBytes_iff (n : BitVec 61) : n = Config.maxMsgBytes ↔ n.toNat = 2 ^ 61 - 1 := by
  rw [← BitVec.toNat_inj]
  rfl

/-- Absorbing a byte writes BUF and NBYTES, and SEQ and CONT at the 64th byte of a block (R76). -/
theorem absorbByte_eq (b : Byte) (s : State) :
    absorbByte b s = { s with
      buf := s.buf.write s.fill b, nbytes := s.nbytes + 1#61
      seq := if s.fill = 63 then .load else s.seq
      cont := if s.fill = 63 then .absorb else s.cont } := by
  unfold absorbByte
  by_cases hf : s.fill = 63
  · simp only [hf, if_true, startBlock]
  · simp only [hf, if_false]

/-- Final padding writes BUF and starts a block event (R78). -/
theorem finalPad_eq (s : State) :
    finalPad s = { s with
      buf := (finalPad s).buf, seq := .load, cont := if s.fill ≤ 55 then .done else .pad2 } := by
  unfold finalPad
  by_cases hf : s.fill ≤ 55
  · simp only [hf, if_true, startBlock]
  · simp only [hf, if_false, startBlock]

/-! ### BUF after the padder's writes -/

/-- The end of the padding: zeros from `lo` to 55, then the bit length, most significant byte first (R77). -/
theorem read_writeLength_bits {buf : Memory} (hb : buf.wf = true) {lo : Nat} (hlo : lo ≤ 56) (n : BitVec 61) {j : Nat}
    (hj : j < 64) :
    (writeLength lo buf n).read j =
      if 56 ≤ j then BitVec.ofNat 8 (8 * n.toNat / 2 ^ (8 * (63 - j)))
      else if lo ≤ j then 0x00#8 else buf.read j := by
  rw [read_writeLength hb hlo n j hj]
  by_cases h56 : 56 ≤ j
  · rw [if_pos h56, if_pos h56, be64_len64_getD n h56 hj]
  · rw [if_neg h56, if_neg h56]

theorem read_writeBytes_zeros {m : Memory} (hm : m.wf = true) {i n : Nat} (hi : i + n ≤ 64) (j : Nat) :
    (m.writeBytes i (List.replicate n 0x00#8)).read j = if i ≤ j ∧ j < i + n then 0x00#8 else m.read j := by
  rw [Memory.read_writeBytes hm (by rwa [List.length_replicate]), List.length_replicate]
  by_cases h : i ≤ j ∧ j < i + n
  · rw [if_pos h, if_pos h, List.getD_replicate _ (by omega)]
  · rw [if_neg h, if_neg h]

/-- The second padding block: 56 zero bytes and the length field (R79). -/
theorem read_secondBlock {buf : Memory} (hb : buf.wf = true) (n : BitVec 61) {j : Nat} (hj : j < 64) :
    (writeLength 0 buf n).read j =
      if j < 56 then 0x00#8 else BitVec.ofNat 8 (8 * n.toNat / 2 ^ (8 * (63 - j))) := by
  rw [read_writeLength_bits hb (Nat.zero_le 56) n hj, if_pos (Nat.zero_le j)]
  by_cases h56 : 56 ≤ j
  · rw [if_pos h56, if_neg (by omega)]
  · rw [if_neg h56, if_pos (by omega)]

/-- The bytes final padding leaves in BUF (R78). -/
theorem read_finalPad {s : State} (hw : s.buf.wf = true) {j : Nat} (hj : j < 64) :
    (finalPad s).buf.read j =
      if j < s.fill then s.buf.read j
      else if j = s.fill then 0x80#8
      else if s.fill ≤ 55 ∧ 56 ≤ j then BitVec.ofNat 8 (8 * s.nbytes.toNat / 2 ^ (8 * (63 - j)))
      else 0x00#8 := by
  have hfill := s.fill_lt
  have hterm := Memory.wf_write hw hfill 0x80#8
  unfold finalPad
  by_cases hf : s.fill ≤ 55
  · simp only [hf, if_true, startBlock_buf, true_and]
    rw [read_writeLength_bits hterm (by omega) _ hj, Memory.read_write hw]
    obtain hlt | rfl | hgt := Nat.lt_trichotomy j s.fill
    · simp (disch := omega) only [if_neg, if_pos]
    · simp (disch := omega) only [if_neg, if_true]
    · by_cases h56 : 56 ≤ j
      · simp (disch := omega) only [if_neg, if_pos]
      · simp (disch := omega) only [if_neg, if_pos]
  · simp only [hf, if_false, startBlock_buf, false_and]
    rw [read_writeBytes_zeros hterm (by omega), Memory.read_write hw]
    obtain hlt | rfl | hgt := Nat.lt_trichotomy j s.fill
    · simp (disch := omega) only [if_neg, if_pos]
    · simp (disch := omega) only [if_neg, if_true]
    · simp (disch := omega) only [if_neg, if_pos]

/-! ### UPDATE -/

/-- Settles O17: the three branches of R105, with FILL = NBYTES mod 64 (R25). -/
theorem updateCommand : Obligations.UpdateCommand := by
  unfold Obligations.UpdateCommand
  refine ⟨fun cw h => decode_of_opBits (op := 2#3) h, fun s b hidle => ?_⟩
  rw [exec_update_of_idle hidle, ← s.fill_eq]
  refine ⟨fun hp => ?_, fun hp hlimit => ?_, fun hp hbelow hw => ?_⟩
  · rw [updateEffect_of_not_absorb hp, raise_usage_eq]
  · rw [updateEffect_of_limit hp ((eq_maxMsgBytes_iff _).mpr hlimit), raise_len_eq]
  · have hn : s.nbytes ≠ Config.maxMsgBytes := by
      rw [ne_eq, eq_maxMsgBytes_iff]
      omega
    rw [updateEffect_of_below hp hn]
    refine ⟨_, rfl, ?_, ?_, fun j => ?_⟩
    · rw [absorbByte_eq, hidle]
    · exact (congrArg BitVec.toNat (absorbByte_nbytes b s)).trans (toNat_succ_of_ne_maxMsgBytes hn)
    · simp only [absorbByte_buf, Memory.read_write hw, eq_comm]

/-! ### S_ACC -/

theorem sAcc_of_absorb {s : State} (h : s.cont = .absorb) :
    sAcc s = { s with hs := accumulate s.hs s.ws, seq := .idle } := by
  simp only [sAcc, h]

theorem sAcc_of_done {s : State} (h : s.cont = .done) :
    sAcc s = { s with hs := accumulate s.hs s.ws, seq := .idle, phase := .done } := by
  simp only [sAcc, h]

theorem sAcc_of_pad2 {s : State} (h : s.cont = .pad2) :
    sAcc s = { s with
      hs := accumulate s.hs s.ws, buf := writeLength 0 s.buf s.nbytes, seq := .load, cont := .done } := by
  simp only [sAcc, h, secondPad, startBlock]

/-- Settles O36: with no reset coming the step is S_ACC, whatever edge the host drives. -/
theorem accumulateMicroStep : Obligations.AccumulateMicroStep := by
  unfold Obligations.AccumulateMicroStep
  intro s hacc hr hw
  have hbusy : s.seq ≠ .idle := by rw [hacc]; nofun
  obtain ⟨rest, hstep⟩ := step_of_busy_noReset hbusy hr
  refine ⟨sAcc { s with inputs := rest }, hstep.trans (microStep_of_acc hacc), sAcc_hs _,
    fun hc => ?_, fun hc => ?_, fun hc => ?_⟩
  · rw [sAcc_of_absorb (s := { s with inputs := rest }) hc]
  · rw [sAcc_of_done (s := { s with inputs := rest }) hc]
  · rw [sAcc_of_pad2 (s := { s with inputs := rest }) hc]
    dsimp only
    exact ⟨rfl, fun j hj => read_secondBlock hw s.nbytes hj⟩

/-! ### Runs of block events -/

/-- A run of n steps to `t`, BUSY = 1 and PHASE as at its start before each of them. -/
def BusyRun (s : State) (n : Nat) (t : State) : Prop :=
  (∀ k < n, ∃ u, runSteps k s = .next u ∧ u.busy = true ∧ u.phase = s.phase) ∧ runSteps n s = .next t

namespace BusyRun

variable {s t u : State} {m n : Nat}

theorem one (hb : s.busy = true) (h : step s = .next t) : BusyRun s 1 t := by
  refine ⟨fun k hk => ?_, run_succ 0 h⟩
  obtain rfl : k = 0 := by omega
  exact ⟨s, rfl, hb, rfl⟩

theorem trans (hst : BusyRun s m t) (htu : BusyRun t n u) (hp : t.phase = s.phase) : BusyRun s (m + n) u := by
  obtain ⟨hbusy, hrun⟩ := hst
  obtain ⟨hbusy', hrun'⟩ := htu
  refine ⟨fun k hk => ?_, (run_add hrun).trans hrun'⟩
  by_cases hkm : k < m
  · exact hbusy k hkm
  · obtain ⟨v, hv, hvb, hvp⟩ := hbusy' (k - m) (by omega)
    refine ⟨v, ?_, hvb, hvp.trans hp⟩
    rw [← run_add hrun, Nat.add_sub_cancel' (by omega)] at hv
    exact hv

theorem busy_in_phase (h : BusyRun s n t) {p : Phase} (hp : s.phase = p) :
    ∀ k < n, ∃ u, runSteps k s = .next u ∧ u.busy = true ∧ u.phase = p :=
  hp ▸ h.1

end BusyRun

/-- The state of a block event that started at `s`, after n rounds: nothing but the compressor's registers differs
(43_compressor.md R90). -/
def State.afterRounds (s : State) (n : Nat) (ws : Working) (w : Vector Word 64) : State :=
  { s with ws := ws, w := w, rnd := BitVec.ofNat 7 n, seq := if n = 64 then .acc else .round }

theorem State.afterRounds_seq_ne_idle (s : State) (n : Nat) (ws : Working) (w : Vector Word 64) :
    (s.afterRounds n ws w).seq ≠ .idle := by
  unfold afterRounds
  split_ifs <;> nofun

/-- Round n writes what R90 and R83 say, from the registers after n rounds. -/
theorem roundStep_afterRounds (s : State) {n : Nat} (hn : n < 64) (ws : Working) (w : Vector Word 64) :
    roundStep n hn (s.afterRounds n ws w) =
      s.afterRounds (n + 1) (ws.round (roundConstant n) (expandSchedule w n hn)[n]) (expandSchedule w n hn) := by
  simp only [roundStep, State.afterRounds, Nat.reduceEqDiff]

/-- S_ROUND takes the state after n rounds to one after n + 1 (R90). -/
theorem step_afterRounds {s : State} (hh : hostHolds s.inputs) {n : Nat} (hn : n < 64) (ws : Working)
    (w : Vector Word 64) :
    ∃ ws' w', step (s.afterRounds n ws w) = .next (s.afterRounds (n + 1) ws' w') := by
  have hrnd : (s.afterRounds n ws w).rnd.toNat = n := by
    show n % 2 ^ 7 = n
    omega
  have hseq : (s.afterRounds n ws w).seq = .round := if_neg (by omega)
  rw [step_of_busy_held (s.afterRounds_seq_ne_idle n ws w) hh, microStep_of_round hseq (by omega)]
  simp only [hrnd, roundStep_afterRounds]
  exact ⟨_, _, rfl⟩

/-- S_LOAD and n rounds (R88). -/
theorem busyRun_rounds {s : State} (hload : s.seq = .load) (hh : hostHolds s.inputs) {n : Nat} (hn : n ≤ 64) :
    ∃ ws w, BusyRun s (1 + n) (s.afterRounds n ws w) := by
  have hbusy : s.seq ≠ .idle := by rw [hload]; nofun
  induction n with
  | zero =>
    exact ⟨_, _, .one ((busy_iff s).mpr hbusy) ((step_of_busy_held hbusy hh).trans (microStep_of_load hload))⟩
  | succ n ih =>
    obtain ⟨ws, w, hrun⟩ := ih (by omega)
    obtain ⟨ws', w', hstep⟩ := step_afterRounds hh (n := n) (by omega) ws w
    exact ⟨ws', w', hrun.trans (.one ((busy_iff _).mpr (s.afterRounds_seq_ne_idle n ws w)) hstep) rfl⟩

/-- The 66 micro-steps of a block event (R88). -/
theorem busyRun_block {s : State} (hload : s.seq = .load) (hh : hostHolds s.inputs) :
    ∃ ws w, BusyRun s 66 (sAcc (s.afterRounds 64 ws w)) := by
  obtain ⟨ws, w, hrun⟩ := busyRun_rounds hload hh (le_refl 64)
  have hbusy := s.afterRounds_seq_ne_idle 64 ws w
  refine ⟨ws, w, hrun.trans (.one ((busy_iff _).mpr hbusy) ?_) rfl⟩
  rw [step_of_busy_held hbusy hh, microStep_of_acc rfl]

/-- The last block event of a computation ends in DONE (R94). -/
theorem busyRun_done {s : State} (hload : s.seq = .load) (hc : s.cont = .done) (hh : hostHolds s.inputs) :
    ∃ u, BusyRun s 66 u ∧ u.busy = false ∧ u.phase = .done := by
  obtain ⟨ws, w, hrun⟩ := busyRun_block hload hh
  rw [sAcc_of_done (s := s.afterRounds 64 ws w) hc] at hrun
  exact ⟨_, hrun, rfl, rfl⟩

/-- The block event of the first of two padding blocks is followed by that of the second (R79, R94). -/
theorem busyRun_pad2 {s : State} (hload : s.seq = .load) (hc : s.cont = .pad2) (hh : hostHolds s.inputs) :
    ∃ u, BusyRun s 132 u ∧ u.busy = false ∧ u.phase = .done := by
  obtain ⟨ws, w, hrun⟩ := busyRun_block hload hh
  have hcont : (s.afterRounds 64 ws w).cont = .pad2 := hc
  obtain ⟨u, hrun', hend⟩ := busyRun_done (s := sAcc (s.afterRounds 64 ws w))
    (by rw [sAcc_of_pad2 hcont]) (by rw [sAcc_of_pad2 hcont]) (by rw [sAcc_of_pad2 hcont]; exact hh)
  exact ⟨u, hrun.trans hrun' (by rw [sAcc_of_pad2 hcont]; rfl), hend⟩

/-- By CONT, one block event or two end in DONE (R78, R106). -/
theorem busyRun_to_done {s : State} {p : Prop} [Decidable p] (hload : s.seq = .load)
    (hc : s.cont = if p then .done else .pad2) (hh : hostHolds s.inputs) :
    ∃ u, BusyRun s (if p then 66 else 132) u ∧ u.busy = false ∧ u.phase = .done := by
  by_cases h : p
  · rw [if_pos h] at hc ⊢
    exact busyRun_done hload hc hh
  · rw [if_neg h] at hc ⊢
    exact busyRun_pad2 hload hc hh

/-! ### FINAL -/

/-- Settles O20: the padding of R78, then one block event or two by CONT. -/
theorem finalCommand : Obligations.FinalCommand := by
  unfold Obligations.FinalCommand
  refine ⟨fun cw h => decode_of_opBits (op := 3#3) h, fun s hidle hp => ?_, fun s hidle hp hw => ?_⟩
  · rw [exec_final_of_idle hidle, finalEffect_of_not_absorb hp, raise_usage_eq]
  · rw [exec_final_of_idle hidle, finalEffect_of_absorb hp, ← s.fill_eq]
    refine ⟨_, rfl, ?_, fun j hj => read_finalPad hw hj, fun hh => ?_⟩
    · rw [finalPad_eq]
    · obtain ⟨u, hrun, hend⟩ := busyRun_to_done (s := { finalPad s with rspValid := false })
        (finalPad_seq s) (finalPad_cont s) ((finalPad_inputs s).symm ▸ hh)
      exact ⟨hrun.busy_in_phase ((finalPad_phase s).trans hp), u, hrun.2, hend⟩

end Sys2Proof.Machine

/-! ## Proofs about the schedule and the rounds (42_schedule.md)

The invariant `State.BlockProgress` ties W and a..h to Schedule(BUF) and Compress(HS, BUF). It is kept by S_LOAD, by
S_ROUND and so by every step; where a block event stands after 65 steps is already said by `busyRun_rounds`, and the
invariant there gives the values it computed. -/

namespace Sys2Proof.Machine

/-! ### S_ROUND -/

/-- RND after round j (R90). -/
theorem roundStep_rnd_toNat {j : Nat} (hj : j < 64) (s : State) : (roundStep j hj s).rnd.toNat = j + 1 := by
  rw [roundStep_rnd, BitVec.toNat_ofNat]
  omega

/-- Settles O35: with no reset coming the step is S_ROUND, whatever edge the host drives. -/
theorem roundMicroStep : Obligations.RoundMicroStep := by
  unfold Obligations.RoundMicroStep
  rintro s j hj hround rfl hr
  have hbusy : s.seq ≠ .idle := by rw [hround]; nofun
  obtain ⟨rest, hstep⟩ := step_of_busy_noReset hbusy hr
  exact ⟨roundStep s.rnd.toNat hj { s with inputs := rest },
    hstep.trans (microStep_of_round (s := { s with inputs := rest }) hround hj),
    expandSchedule_same s.w _ hj, fun h16 => expandSchedule_other s.w _ hj _ hj (.inr h16),
    fun k hk hne => expandSchedule_other s.w _ hj k hk (.inl hne),
    _, _, rfl, rfl, rfl, roundStep_rnd_toNat hj _⟩

/-! ### W during a block event -/

/-- W[0..15] and W[0..n-1] are words of Schedule(B): what the rounds below n read (R84). -/
def HoldsSchedule (b : Nat → Byte) (w : Vector Word 64) (n : Nat) : Prop :=
  ∀ j (hj : j < 64), (j < 16 ∨ j < n) → w[j] = scheduleWord b j

/-- S_LOAD establishes it (R82). -/
theorem holdsSchedule_loadSchedule (buf : Memory) (w : Vector Word 64) :
    HoldsSchedule buf.read (loadSchedule buf w) 0 := by
  intro j hj hlow
  have h16 : j < 16 := by omega
  rw [loadSchedule_of_lt buf w h16, scheduleWord_load _ h16]

/-- Round n adds W[n] to it (R81, R83). -/
theorem HoldsSchedule.succ {b : Nat → Byte} {w : Vector Word 64} {n : Nat} (h : HoldsSchedule b w n)
    (hn : n < 64) : HoldsSchedule b (expandSchedule w n hn) (n + 1) := by
  intro j hj hlow
  by_cases hnew : j = n ∧ 16 ≤ n
  · obtain ⟨rfl, h16⟩ := hnew
    rw [expandSchedule_same w j hj h16, scheduleWord_expand b h16 hj, h (j - 16) (by omega) (by omega),
      h (j - 15) (by omega) (by omega), h (j - 7) (by omega) (by omega), h (j - 2) (by omega) (by omega)]
  · rw [expandSchedule_other w n hn j hj (by omega), h j hj (by omega)]

/-! ### The invariant of a block event -/

/-- The invariant says nothing of a state that is in no round and not in S_ACC. -/
theorem State.BlockProgress.of_idle_or_load {s : State} (h : s.seq = .idle ∨ s.seq = .load) : s.BlockProgress := by
  obtain ⟨hround, hacc⟩ : s.seq ≠ .round ∧ s.seq ≠ .acc := by
    obtain hq | hq := h <;> rw [hq] <;> decide
  exact ⟨(absurd · hround), (absurd · hround), (absurd · hround), (absurd · hacc), (absurd · hacc)⟩

/-- S_LOAD starts the rounds with a..h = HS and the block in W[0..15] (R82, R89). -/
theorem sLoad_blockProgress (s : State) : (sLoad s).BlockProgress where
  roundIndex _ := by rw [sLoad_rnd]; decide
  roundWorking _ := rfl
  roundSchedule _ := holdsSchedule_loadSchedule s.buf s.w
  accWorking := nofun
  accSchedule := nofun

/-- Round j reads W[j] = Schedule(BUF)[j], and the rounds end with round 63 (R84, R90, R91). -/
theorem roundStep_blockProgress {s : State} (h : s.BlockProgress) (hq : s.seq = .round) (hj : s.rnd.toNat < 64) :
    (roundStep s.rnd.toNat hj s).BlockProgress := by
  have hrnd := roundStep_rnd_toNat hj s
  have hw : HoldsSchedule s.buf.read (expandSchedule s.w s.rnd.toNat hj) (s.rnd.toNat + 1) :=
    HoldsSchedule.succ (h.roundSchedule hq) hj
  have hws : (roundStep s.rnd.toNat hj s).ws = compressRounds s.hs s.buf.read (s.rnd.toNat + 1) := by
    rw [roundStep_ws, hw _ hj (.inr (Nat.lt_succ_self _)), h.roundWorking hq, compressRounds]
  rw [← hrnd] at hw hws
  by_cases h63 : s.rnd.toNat = 63
  · have hseq : (roundStep s.rnd.toNat hj s).seq = .acc := by rw [roundStep_seq, if_pos h63]
    have hlast : (roundStep s.rnd.toNat hj s).rnd.toNat = 64 := by omega
    rw [hlast] at hws hw
    have hround : (roundStep s.rnd.toNat hj s).seq ≠ .round := by rw [hseq]; nofun
    exact ⟨(absurd · hround), (absurd · hround), (absurd · hround), fun _ => hws, fun _ j hj => hw j hj (.inr hj)⟩
  · have hacc : (roundStep s.rnd.toNat hj s).seq ≠ .acc := by rw [roundStep_seq, if_neg h63]; nofun
    exact ⟨fun _ => by omega, fun _ => hws, fun _ => hw, (absurd · hacc), (absurd · hacc)⟩

/-- Every micro-step keeps the invariant; S_ACC ends the block event or starts the next one (R94). -/
theorem microStep_keeps_blockProgress {s t : State} (hs : s.BlockProgress) (h : microStep s = .next t) :
    t.BlockProgress := by
  obtain ⟨-, rfl⟩ | ⟨-, rfl⟩ | ⟨hj, hq, rfl⟩ | ⟨-, rfl⟩ := microStep_next h
  · exact hs
  · exact sLoad_blockProgress s
  · exact roundStep_blockProgress hs hq hj
  · refine .of_idle_or_load ?_
    rw [sAcc_seq]
    split_ifs
    · exact .inr rfl
    · exact .inl rfl

/-- The host's edges are no part of the invariant. -/
theorem State.BlockProgress.withInputs {s : State} (h : s.BlockProgress) (edges : List HostEdge) :
    State.BlockProgress { s with inputs := edges } := by
  obtain ⟨hindex, hws, hw, hws', hw'⟩ := h
  exact ⟨hindex, hws, hw, hws', hw'⟩

/-- A command given to an idle core leaves it idle or starts a block event (R76, R78). -/
theorem CommandOutcome.seq_idle_or_load {s t : State} {i : Instr} (h : CommandOutcome s i t) (hidle : s.seq = .idle) :
    t.seq = .idle ∨ t.seq = .load := by
  cases h with
  | absorbs b =>
    rw [absorbByte_seq, hidle]
    split_ifs
    · exact .inr rfl
    · exact .inl rfl
  | pads => exact .inr (finalPad_seq s)
  | _ => simp [hidle]

/-- Every step keeps the invariant: a reset edge and an accepted command leave S_IDLE or S_LOAD. -/
theorem step_keeps_blockProgress {s t : State} (hs : s.BlockProgress) (h : step s = .next t) : t.BlockProgress := by
  obtain ⟨e, rest, -, -, rfl⟩ | ⟨cw, rest, hacc, rfl⟩ | ⟨-, rest, rfl⟩ | ⟨-, -, rest, hm⟩ := step_next h
  · exact .of_idle_or_load (.inl (resetEffect_seq _))
  · obtain ⟨hidle, -⟩ := hacc
    exact .of_idle_or_load ((commandEffect_outcome (decode cw) { s with inputs := rest }).seq_idle_or_load hidle)
  · exact hs.withInputs rest
  · exact microStep_keeps_blockProgress (hs.withInputs rest) hm

/-- What every step keeps, a run keeps. -/
theorem run_keeps {P : State → Prop} (hstep : ∀ {s t : State}, P s → step s = .next t → P t) {k : Nat} {s t : State}
    (hs : P s) (h : runSteps k s = .next t) : P t := by
  induction k generalizing s with
  | zero => cases h; exact hs
  | succ k ih =>
    obtain ⟨u, hu, hrun⟩ := run_succ_next h
    exact ih (hstep hs hu) hrun

/-! ### The block event -/

/-- Settles O37: S_LOAD and 64 rounds lead to S_ACC, and the invariant there is the claim. -/
theorem blockEventComputesCompress : Obligations.BlockEventComputesCompress := by
  unfold Obligations.BlockEventComputesCompress
  intro s hload hh
  obtain ⟨ws, w, -, hrun⟩ := busyRun_rounds hload hh (le_refl 64)
  have hend : (s.afterRounds 64 ws w).BlockProgress :=
    run_keeps step_keeps_blockProgress (.of_idle_or_load (.inr hload)) hrun
  have hws : ws = compress s.hs s.buf.read := hend.accWorking rfl
  exact ⟨s.afterRounds 64 ws w, hrun, hws ▸ rfl, hend.accSchedule rfl⟩

end Sys2Proof.Machine

/-! ## Proofs about the round constants (43_compressor.md)

The primes below 312 are found by trial division, and the j-th entry of that list is the j-th prime. Each K[j] is then
checked against R86 in exact integers. -/

namespace Sys2Proof.Machine

/-! ### The first 64 primes -/

/-- Filtering an initial segment of the numbers lists the values of `Nat.nth`, from index 0 on. -/
theorem filter_range_getElem_eq_nth (p : Nat → Prop) [DecidablePred p] {n j : Nat}
    (hj : j < ((List.range n).filter p).length) : ((List.range n).filter p)[j] = Nat.nth p j := by
  induction n with
  | zero => simp at hj
  | succ n ih =>
    have hcount : ((List.range n).filter p).length = Nat.count p n := by
      rw [Nat.count, List.countP_eq_length_filter]
    simp only [List.range_succ, List.filter_append] at hj ⊢
    by_cases hlt : j < ((List.range n).filter p).length
    · rw [List.getElem_append_left hlt, ih hlt]
    · by_cases hn : p n
      · have hlast : j < Nat.count p n + 1 := by simpa [hn, hcount] using hj
        obtain rfl : j = Nat.count p n := by omega
        simp [hcount, hn, Nat.nth_count hn]
      · exact absurd (by simpa [hn] using hj) hlt

/-- Below b², divisors below b decide whether a number is prime. -/
theorem prime_iff_of_lt_mul_self {n b : Nat} (h : n < b * b) :
    Nat.Prime n ↔ 2 ≤ n ∧ ∀ d < b, d ∣ n → d = 1 ∨ d = n := by
  constructor
  · intro hn
    exact ⟨hn.two_le, fun d _ hd => hn.eq_one_or_self_of_dvd d hd⟩
  · rintro ⟨h2, hdiv⟩
    have hmin : n.minFac.Prime := Nat.minFac_prime (by omega)
    by_contra hn
    have hsq : n.minFac ^ 2 ≤ n := Nat.minFac_sq_le_self (by omega) hn
    have hlt : n.minFac < b := by nlinarith
    obtain h1 | hself := hdiv _ hlt n.minFac_dvd
    · exact hmin.ne_one h1
    · exact hn (hself ▸ hmin)

/-- p_0, …, p_63 of R86. -/
def firstPrimes : List Nat :=
  [2, 3, 5, 7, 11, 13, 17, 19] ++ [23, 29, 31, 37, 41, 43, 47, 53] ++ [59, 61, 67, 71, 73, 79, 83, 89] ++
  [97, 101, 103, 107, 109, 113, 127, 131] ++ [137, 139, 149, 151, 157, 163, 167, 173] ++
  [179, 181, 191, 193, 197, 199, 211, 223] ++ [227, 229, 233, 239, 241, 251, 257, 263] ++
  [269, 271, 277, 281, 283, 293, 307, 311]

/-- Since 312 < 18², trial division by the numbers below 18 finds them. -/
theorem filter_prime_range_eq_firstPrimes : (List.range 312).filter Nat.Prime = firstPrimes := by
  calc (List.range 312).filter Nat.Prime
      = (List.range 312).filter fun n => 2 ≤ n ∧ ∀ d < 18, d ∣ n → d = 1 ∨ d = n := by
        refine List.filter_congr fun n hn => ?_
        have hlt : n < 312 := List.mem_range.1 hn
        rw [decide_eq_decide, prime_iff_of_lt_mul_self (b := 18) (by omega)]
    _ = firstPrimes := by decide

theorem nth_prime_eq_firstPrimes {j : Nat} (hj : j < 64) : Nat.nth Nat.Prime j = firstPrimes.getD j 0 := by
  have hlen : j < firstPrimes.length := hj
  rw [List.getD_eq_getElem _ _ hlen]
  simp only [← filter_prime_range_eq_firstPrimes] at hlen ⊢
  exact (filter_range_getElem_eq_nth Nat.Prime hlen).symm

/-! ### The cube roots -/

/-- `r` is the cube root of `n`, rounded down. -/
abbrev IsFloorCbrt (r n : Nat) : Prop := r ^ 3 ≤ n ∧ n < (r + 1) ^ 3

/-- R86 for the listed primes; all are below 7³. -/
theorem roundConstant_isFloorCbrt_firstPrimes : ∀ j < 64, ∃ c < 7, IsFloorCbrt c (firstPrimes.getD j 0) ∧
    IsFloorCbrt ((roundConstant j).toNat + c * 2 ^ 32) (firstPrimes.getD j 0 * 2 ^ 96) := by
  decide

/-- Settles O11: the listed primes are the first 64, and each K[j] meets R86 for its own. -/
theorem roundConstantsAreCubeRoots : Obligations.RoundConstantsAreCubeRoots := by
  unfold Obligations.RoundConstantsAreCubeRoots
  refine ⟨Nat.nth_prime_zero_eq_two, nth_prime_eq_firstPrimes (by omega), fun j hj => ?_⟩
  obtain ⟨c, -, ⟨hle, hlt⟩, hle', hlt'⟩ := roundConstant_isFloorCbrt_firstPrimes j hj
  rw [nth_prime_eq_firstPrimes hj]
  exact ⟨c, hle, hlt, hle', hlt'⟩

end Sys2Proof.Machine

/-! ## Proofs about the accumulator and serializer (44_accumulator_serializer.md)

The digest port is cut into words by `digestValue_word` and each word into bytes by `digestByte_eq`, which READ uses
too. -/

namespace Sys2Proof.Machine

/-! ### Digest bytes -/

/-- Digest(4i + m) is byte m from the top of HS[i] (R97). -/
theorem digestByte_eq (hs : HashState) {idx : BitVec 5} {i m : Nat} (hi : i < 8) (hm : m < 4)
    (hidx : idx.toNat = 4 * i + m) : digestByte hs idx = hs[i].extractLsb' (24 - 8 * m) 8 := by
  have hword : idx.toNat / 4 = i := by omega
  have hbyte : idx.toNat % 4 = m := by omega
  simp only [digestByte, hword, hbyte]

theorem extractLsb'_eq_ofNat_div {w : Nat} (x : BitVec w) (start len : Nat) :
    x.extractLsb' start len = BitVec.ofNat len (x.toNat / 2 ^ start) :=
  congrArg (BitVec.ofNat len) (Nat.shiftRight_eq_div_pow _ _)

/-! ### READ -/

theorem idxOperand_dataField (cw : CmdWord) : idxOperand (dataField cw) = cw.extractLsb' 0 5 :=
  BitVec.extractLsb'_extractLsb'_of_le (by omega)

theorem readEffect_of_not_done {s : State} (hp : s.phase ≠ .done) (idx : BitVec 5) :
    readEffect idx s = drawRspData (raise .usage s) := if_pos hp

theorem readEffect_of_done {s : State} (hp : s.phase = .done) (idx : BitVec 5) :
    readEffect idx s = { s with rspData := digestByte s.hs idx } := if_neg (not_not.mpr hp)

theorem exec_read_of_idle {s : State} (h : s.seq = .idle) (idx : BitVec 5) :
    exec (.read idx) s = .next { readEffect idx s with rspValid := true } := exec_of_idle h _

/-- Settles O21: the two branches of R107; the answer in DONE is the digest byte of R97. -/
theorem readCommand : Obligations.ReadCommand := by
  unfold Obligations.ReadCommand
  refine ⟨fun cw h => ?_, fun s idx hidle => ?_⟩
  · rw [decode_of_opBits (op := 4#3) h, decodeFields_read, idxOperand_dataField]
  · rw [exec_read_of_idle hidle]
    refine ⟨fun hp => ?_, fun hp => ?_⟩
    · rw [readEffect_of_done hp]
      refine ⟨digestByte s.hs idx, rfl, fun i m hi hm hidx => ?_⟩
      rw [digestByte_eq s.hs hi hm hidx, extractLsb'_eq_ofNat_div]
    · rw [readEffect_of_not_done hp, raise_usage_eq]
      exact ⟨_, rfl⟩

/-! ### The digest port -/

/-- The value of the digest port in DONE (R98). -/
def digestValue (hs : HashState) : BitVec 256 :=
  hs[0] ++ hs[1] ++ hs[2] ++ hs[3] ++ hs[4] ++ hs[5] ++ hs[6] ++ hs[7]

theorem digestValid_iff (s : State) : s.digestValid = true ↔ s.phase = .done := beq_iff_eq

theorem digest_of_done {s : State} (hp : s.phase = .done) : s.digest = some (digestValue s.hs) :=
  if_pos ((digestValid_iff s).mpr hp)

theorem digest_of_not_done {s : State} (hp : s.phase ≠ .done) : s.digest = none :=
  if_neg (mt (digestValid_iff s).mp hp)

/-- The words of the port, HS[0] at the top: each cut falls on one part of the concatenation (R98). -/
theorem digestValue_word (hs : HashState) {i : Nat} (hi : i < 8) :
    (digestValue hs).extractLsb' (224 - 32 * i) 32 = hs[i] := by
  unfold digestValue
  interval_cases i <;>
    simp (disch := omega) only [BitVec.extractLsb'_append_eq_of_le, BitVec.extractLsb'_append_eq_of_add_le,
      BitVec.extractLsb'_eq_self, Nat.reduceMul, Nat.reduceSub]

/-- A byte of the port is a byte of one of its words. -/
theorem digestValue_byte (hs : HashState) (idx : BitVec 5) :
    (digestValue hs).extractLsb' (248 - 8 * idx.toNat) 8 = digestByte hs idx := by
  have hidx := idx.isLt
  have hi : idx.toNat / 4 < 8 := by omega
  have hm : idx.toNat % 4 < 4 := by omega
  rw [digestByte_eq hs hi hm (Nat.div_add_mod _ _).symm, ← digestValue_word hs hi]
  apply BitVec.eq_of_getLsbD_eq
  intro k hk
  have hinWord : 24 - 8 * (idx.toNat % 4) + k < 32 := by omega
  have hstart : 248 - 8 * idx.toNat + k = 224 - 32 * (idx.toNat / 4) + (24 - 8 * (idx.toNat % 4) + k) := by omega
  simp only [BitVec.getLsbD_extractLsb', hinWord, decide_true, Bool.true_and, hstart]

/-- Settles O33: in DONE the port shows the eight words in order, and each byte lies in the word R97 names. -/
theorem digestPort : Obligations.DigestPort := by
  unfold Obligations.DigestPort
  intro s
  refine ⟨fun hp => ⟨(digestValid_iff s).mpr hp, digestValue s.hs, digest_of_done hp, digestValue_byte s.hs,
    fun i hi => digestValue_word s.hs hi⟩, fun hp => ⟨?_, digest_of_not_done hp⟩⟩
  exact Bool.eq_false_iff.mpr (mt (digestValid_iff s).mp hp)

end Sys2Proof.Machine

/-! ## Proofs about the commands (45_commands.md)

The commands without a block event are one update of the state each. For the command stream of R111, the predicates
`Absorbed`, `Compressing` and `Finished` say where the computation of a message stands; one lemma per command takes the
core from one to the next. -/

namespace Sys2Proof

theorem decode_commandWord (op : BitVec 3) (data : Byte) : decode (commandWord op data) = decodeFields op data := by
  rw [decode, opField_commandWord, dataField_commandWord]

/-- The words from 0x600 up are the reserved ones (R109). -/
theorem decode_of_reserved {cw : CmdWord} (h : 0x600 ≤ cw.toNat) :
    decode cw = .reserved6 ∨ decode cw = .reserved7 := by
  have hop : (opField cw).toNat = cw.toNat / 2 ^ 8 := by
    rw [opField, BitVec.extractLsb'_toNat, Nat.shiftRight_eq_div_pow, Nat.mod_eq_of_lt (by omega)]
  obtain h6 | h7 : opField cw = 6#3 ∨ opField cw = 7#3 := by bv_omega
  · exact .inl (by rw [decode, h6, decodeFields_reserved6])
  · exact .inr (by rw [decode, h7, decodeFields_reserved7])

/-- The canonical word of a command decodes to it (R56). -/
theorem decode_encode (i : Instr) : decode (encode i) = i := by
  cases i with
  | read idx => exact (decode_commandWord _ _).trans (congrArg Instr.read (idxOperand_zeroExtended idx))
  | _ => exact decode_commandWord _ _

/-- READALL reads the digest bytes in order (R60). -/
theorem readAllWords_getElem {n : Nat} (hn : n < readAllWords.length) :
    readAllWords[n] = encode (.read (BitVec.ofNat 5 n)) := by
  simp only [readAllWords, List.getElem_map, List.getElem_range]

end Sys2Proof

namespace Sys2Proof.Machine

/-! ### NOP, INIT, RDSTAT and the reserved words -/

theorem raise_illegal_eq (s : State) :
    raise .illegal s = { s with errIllegal := true, raised := { s.raised with illegal := true } } := rfl

/-- Bit 0 of STATUS is BUSY (R20). -/
theorem status_bit_zero (s : State) : s.status.getLsbD 0 = s.busy := by
  rw [State.status, BitVec.getLsbD_append, if_pos Nat.one_pos, BitVec.getLsbD_ofBool, decide_eq_true rfl, Bool.true_and]

theorem exec_reserved_of_idle {s : State} (h : s.seq = .idle) {i : Instr} (hi : i = .reserved6 ∨ i = .reserved7) :
    exec i s = .next { raise .illegal s with rspValid := false } := by
  obtain rfl | rfl := hi <;> exact exec_of_idle h _

/-- Settles O15: NOP has no effect of its own, so acceptance alone is left. -/
theorem nopChangesNothingElse : Obligations.NopChangesNothingElse := by
  unfold Obligations.NopChangesNothingElse
  exact ⟨fun cw h => decode_of_opBits (op := 0#3) h, fun s hidle => exec_of_idle hidle .nop⟩

/-- Settles O16: the eight IV words are those of R92. -/
theorem initOpensComputation : Obligations.InitOpensComputation := by
  unfold Obligations.InitOpensComputation
  refine ⟨fun cw h => decode_of_opBits (op := 1#3) h, fun s hidle => ?_⟩
  exact exec_of_idle hidle .init

/-- Settles O22: RDSTAT is accepted with BUSY = 0, which is bit 0 of the answer. -/
theorem rdstatReportsStatus : Obligations.RdstatReportsStatus := by
  unfold Obligations.RdstatReportsStatus
  refine ⟨fun cw h => decode_of_opBits (op := 5#3) h, fun s hidle => ?_⟩
  exact ⟨s.status, exec_of_idle hidle .rdstat, rfl, (status_bit_zero s).trans ((not_busy_iff s).mpr hidle)⟩

/-- Settles O24: both reserved rows raise ERR_ILLEGAL, and no word from 0x600 up is in another row. -/
theorem reservedWordsAreIllegal : Obligations.ReservedWordsAreIllegal := by
  unfold Obligations.ReservedWordsAreIllegal
  have hexec : ∀ (s : State) (i : Instr), s.seq = .idle → (i = .reserved6 ∨ i = .reserved7) →
      exec i s = .next { s with
        errIllegal := true, raised := { s.raised with illegal := true }, rspValid := false } := by
    intro s i hidle hi
    rw [exec_reserved_of_idle hidle hi, raise_illegal_eq]
  exact ⟨fun s cw hidle hcw => hexec s _ hidle (decode_of_reserved hcw), hexec⟩

/-- A core with BUSY = 0 runs the next command the host issues (R101). -/
theorem step_of_issued {s : State} {i : Instr} {words : List CmdWord} (hs : s.seq = .idle)
    (hi : s.inputs = issue (encode i :: words)) :
    step s = .next { commandEffect i { s with inputs := issue words } with rspValid := responds i } := by
  rw [step_of_issue hs hi, decode_encode]

/-! ### The block events that run when the host comes -/

/-- The micro-steps before BUSY falls (43_compressor.md R88): those left of the block event that runs, and with
CONT = C_PAD2 those of the second one. -/
def State.microStepsLeft (s : State) : Nat :=
  match s.seq with
  | .idle => 0
  | .load => 66 + if s.cont = .pad2 then 66 else 0
  | .round => 65 - s.rnd.toNat + if s.cont = .pad2 then 66 else 0
  | .acc => 1 + if s.cont = .pad2 then 66 else 0

theorem microStepsLeft_of_idle {s : State} (h : s.seq = .idle) : s.microStepsLeft = 0 := by
  simp only [State.microStepsLeft, h]

theorem microStepsLeft_of_load {s : State} (h : s.seq = .load) :
    s.microStepsLeft = 66 + if s.cont = .pad2 then 66 else 0 := by
  simp only [State.microStepsLeft, h]

theorem microStepsLeft_of_round {s : State} (h : s.seq = .round) :
    s.microStepsLeft = 65 - s.rnd.toNat + if s.cont = .pad2 then 66 else 0 := by
  simp only [State.microStepsLeft, h]

theorem microStepsLeft_of_acc {s : State} (h : s.seq = .acc) :
    s.microStepsLeft = 1 + if s.cont = .pad2 then 66 else 0 := by
  simp only [State.microStepsLeft, h]

theorem microStepsLeft_le (s : State) : s.microStepsLeft ≤ 132 := by
  have hsecond : (if s.cont = .pad2 then 66 else 0) ≤ 66 := by split_ifs <;> decide
  unfold State.microStepsLeft
  split <;> omega

theorem microStep_raised {s t : State} (h : microStep s = .next t) : t.raised = s.raised :=
  microStep_keeps State.raised sLoad_raised roundStep_raised sAcc_raised h

/-- A micro-step keeps the canonical form of BUF. -/
theorem microStep_bufCanonical {s t : State} (hw : s.buf.wf = true) (h : microStep s = .next t) :
    t.buf.wf = true := by
  obtain ⟨-, rfl⟩ | ⟨-, rfl⟩ | ⟨hj, -, rfl⟩ | ⟨-, rfl⟩ := microStep_next h
  · exact hw
  · exact hw
  · exact hw
  · rw [sAcc_buf]
    split_ifs
    · exact wf_writeLength hw (Nat.zero_le 56) s.nbytes
    · exact hw

/-- S_ROUND is enabled in S_ROUND (R90). -/
def State.RoundEnabled (s : State) : Prop := s.seq = .round → s.rnd.toNat < 64

/-- A micro-step of a busy core answers, and is one of those that were left. -/
theorem microStep_counts {s : State} (hs : s.seq ≠ .idle) (hr : s.RoundEnabled) :
    ∃ t, microStep s = .next t ∧ t.RoundEnabled ∧ s.microStepsLeft = t.microStepsLeft + 1 := by
  cases hq : s.seq with
  | idle => exact absurd hq hs
  | load =>
    refine ⟨_, microStep_of_load hq, fun _ => by rw [sLoad_rnd]; decide, ?_⟩
    rw [microStepsLeft_of_load hq, microStepsLeft_of_round (sLoad_seq s), sLoad_rnd, sLoad_cont]
    rw [show (0#7).toNat = 0 from rfl]
    omega
  | round =>
    have hj := hr hq
    have hrnd := roundStep_rnd_toNat hj s
    refine ⟨_, microStep_of_round hq hj, fun h => ?_, ?_⟩
    · rw [hrnd]
      rw [roundStep_seq] at h
      split_ifs at h
      omega
    · rw [microStepsLeft_of_round hq]
      by_cases h63 : s.rnd.toNat = 63
      · rw [microStepsLeft_of_acc ((roundStep_seq ..).trans (if_pos h63)), roundStep_cont]
        omega
      · rw [microStepsLeft_of_round ((roundStep_seq ..).trans (if_neg h63)), roundStep_cont, hrnd]
        omega
  | acc =>
    refine ⟨_, microStep_of_acc hq, fun h => ?_, ?_⟩
    · rw [sAcc_seq] at h
      split_ifs at h
    · rw [microStepsLeft_of_acc hq]
      by_cases hc : s.cont = .pad2
      · rw [microStepsLeft_of_load ((sAcc_seq s).trans (if_pos hc)), sAcc_cont, if_pos hc, if_pos hc, if_neg nofun]
      · rw [microStepsLeft_of_idle ((sAcc_seq s).trans (if_neg hc)), if_neg hc]

/-- Block events end after the micro-steps left, with the host's commands, the record and BUF's form kept (R88). -/
theorem run_microStepsLeft {n : Nat} {s : State} (hn : s.microStepsLeft = n) (hr : s.RoundEnabled)
    (hw : s.buf.wf = true) (hh : hostHolds s.inputs) :
    ∃ t, runSteps n s = .next t ∧ t.seq = .idle ∧ t.inputs = s.inputs ∧ t.raised = s.raised ∧
      t.buf.wf = true := by
  induction n generalizing s with
  | zero =>
    refine ⟨s, rfl, ?_, rfl, rfl, hw⟩
    by_contra hs
    obtain ⟨t, -, -, hcount⟩ := microStep_counts hs hr
    omega
  | succ n ih =>
    have hs : s.seq ≠ .idle := fun hidle => by
      rw [microStepsLeft_of_idle hidle] at hn
      omega
    obtain ⟨t, hm, hrt, hcount⟩ := microStep_counts hs hr
    have hin : t.inputs = s.inputs := (microStep_inputs hm []).2
    obtain ⟨u, hrun, hidle, hinu, hraised, hwu⟩ :=
      ih (s := t) (by omega) hrt (microStep_bufCanonical hw hm) (hin ▸ hh)
    have hstep : step s = .next t := (step_of_busy_held hs hh).trans hm
    exact ⟨u, (run_succ n hstep).trans hrun, hidle, hinu.trans hin, hraised.trans (microStep_raised hm), hwu⟩

/-! ### The blocks of the padded message (R72, R73) -/

/-- The length field is the last eight bytes of the last block. -/
theorem lengthField_start (msg : List Byte) :
    msg.length + 1 + padZeros msg.length + 8 = 64 * numBlocks msg.length := by
  have hlen := pad_length msg
  have hblocks := pad_length_eq_numBlocks msg
  omega

theorem padBlock_zero (msg : List Byte) {k j : Nat} (hlow : msg.length < 64 * k + j)
    (hhigh : 64 * k + j + 8 < 64 * numBlocks msg.length) : padBlock msg k j = 0x00#8 :=
  pad_getD_zero msg hlow (by have := lengthField_start msg; omega)

theorem padBlock_lengthField {msg : List Byte} {n : BitVec 61} (hn : n.toNat = msg.length) {k j : Nat}
    (hk : k + 1 = numBlocks msg.length) (h56 : 56 ≤ j) (hj : j < 64) :
    padBlock msg k j = BitVec.ofNat 8 (8 * n.toNat / 2 ^ (8 * (63 - j))) := by
  have hstart := lengthField_start msg
  have hlen : BitVec.ofNat 64 (8 * msg.length) = len64 n := by
    rw [← hn, ← len64_toNat, BitVec.ofNat_toNat, BitVec.setWidth_eq]
  rw [padBlock, pad_getD_length msg (by omega), hlen, ← be64_len64_getD n h56 hj]
  congr 1
  omega

/-! ### Where the computation of a message stands -/

section

variable {r : Raised} {words : List CmdWord} {msg : List Byte} {k : Nat} {s t : State}

/-- Since INIT the message `msg` was given and no error raised, `r` being the record before; the host has still to issue
`words`. -/
structure Hashing (r : Raised) (words : List CmdWord) (msg : List Byte) (s : State) : Prop where
  pending : s.inputs = issue words
  bufCanonical : s.buf.wf = true
  count : s.nbytes.toNat = msg.length
  noUsage : s.errUsage = false
  noIllegal : s.errIllegal = false
  noLen : s.errLen = false
  record : s.raised = r

/-- The complete blocks of `msg` are in HS and the rest of it in BUF (R75, R76). -/
structure Absorbed (r : Raised) (words : List CmdWord) (msg : List Byte) (s : State) : Prop
    extends Hashing r words msg s where
  ready : s.seq = .idle
  inAbsorb : s.phase = .absorb
  chained : s.hs = chain msg (msg.length / 64)
  tail : ∀ j < msg.length % 64, s.buf.read j = msg.getD (64 * (msg.length / 64) + j) 0x00#8

/-- The block event of block k of `pad(msg)` starts (R88, R95). -/
structure Compressing (r : Raised) (words : List CmdWord) (msg : List Byte) (k : Nat) (s : State) : Prop
    extends Hashing r words msg s where
  starts : s.seq = .load
  inAbsorb : s.phase = .absorb
  chained : s.hs = chain msg k
  block : ∀ j < 64, s.buf.read j = padBlock msg k j

/-- The hash state of `msg` stands in HS (R96). -/
structure Finished (r : Raised) (words : List CmdWord) (msg : List Byte) (s : State) : Prop
    extends Hashing r words msg s where
  ready : s.seq = .idle
  inDone : s.phase = .done
  hashed : s.hs = hashOf msg

/-- FILL counts the bytes in BUF that no block event has taken (R25). -/
theorem Hashing.fill_eq (h : Hashing r words msg s) : s.fill = msg.length % 64 :=
  s.fill_eq.trans (congrArg (· % 64) h.count)

theorem Hashing.hostHolds (h : Hashing r words msg s) : hostHolds s.inputs :=
  h.pending ▸ hostHolds_issue words

@[simp] theorem afterRounds_buf (s : State) (n : Nat) (ws : Working) (w : Vector Word 64) :
    (s.afterRounds n ws w).buf = s.buf := rfl

@[simp] theorem afterRounds_nbytes (s : State) (n : Nat) (ws : Working) (w : Vector Word 64) :
    (s.afterRounds n ws w).nbytes = s.nbytes := rfl

/-- The rounds touch nothing that `Hashing` speaks of. -/
theorem Hashing.afterRounds (h : Hashing r words msg s) (n : Nat) (ws : Working) (w : Vector Word 64) :
    Hashing r words msg (s.afterRounds n ws w) := { h with }

/-- S_ACC touches only BUF of what `Hashing` speaks of (R79). -/
theorem Hashing.sAcc (h : Hashing r words msg s) : Hashing r words msg (sAcc s) where
  pending := (sAcc_inputs s).trans h.pending
  bufCanonical := by
    rw [sAcc_buf]
    split_ifs
    · exact wf_writeLength h.bufCanonical (Nat.zero_le 56) s.nbytes
    · exact h.bufCanonical
  count := (congrArg BitVec.toNat (sAcc_nbytes s)).trans h.count
  noUsage := (sAcc_errUsage s).trans h.noUsage
  noIllegal := (sAcc_errIllegal s).trans h.noIllegal
  noLen := (sAcc_errLen s).trans h.noLen
  record := (sAcc_raised s).trans h.record

/-- The block event of block k ends with H_(k+1) in HS (R95); what S_ACC does then is its continuation's. -/
theorem Compressing.run (h : Compressing r words msg k s) :
    ∃ ws w, runSteps 66 s = .next (sAcc (s.afterRounds 64 ws w)) ∧ accumulate s.hs ws = chain msg (k + 1) := by
  have hcompute := blockEventComputesCompress
  unfold Obligations.BlockEventComputesCompress at hcompute
  obtain ⟨t, hrun, ht, -⟩ := hcompute s h.starts h.hostHolds
  have hstate : t = s.afterRounds 64 (compress s.hs s.buf.read) t.w := ht
  have hseq : t.seq = .acc := by rw [ht]
  have hin : hostHolds t.inputs := by rw [ht]; exact h.hostHolds
  have hstep : step t = .next (sAcc t) :=
    (step_of_busy_held (by rw [hseq]; nofun) hin).trans (microStep_of_acc hseq)
  refine ⟨compress s.hs s.buf.read, t.w, ?_, ?_⟩
  · rw [← hstate]
    exact (run_add hrun).trans (run_succ 0 hstep)
  · rw [compress_congr h.block, h.chained, chain]

/-! ### INIT -/

/-- INIT opens the computation of the empty message (R104). -/
theorem absorbed_of_init (hidle : s.seq = .idle) (hin : s.inputs = issue (encode .init :: words))
    (hw : s.buf.wf = true) : ∃ t, step s = .next t ∧ Absorbed s.raised words [] t := by
  refine ⟨_, step_of_issued hidle hin, ?_⟩
  exact { pending := rfl, bufCanonical := hw, count := rfl, noUsage := rfl, noIllegal := rfl, noLen := rfl,
          record := rfl, ready := hidle, inAbsorb := rfl, chained := rfl, tail := nofun }

/-! ### UPDATE -/

/-- The byte joins those of its block in BUF (R76). -/
theorem Absorbed.read_write (h : Absorbed r words msg s) (b : Byte) {j : Nat} (hj : j ≤ msg.length % 64) :
    (s.buf.write s.fill b).read j = (msg ++ [b]).getD (64 * (msg.length / 64) + j) 0x00#8 := by
  rw [Memory.read_write h.bufCanonical, h.fill_eq]
  by_cases hlast : msg.length % 64 = j
  · have hend : 64 * (msg.length / 64) + j = msg.length := by omega
    rw [if_pos hlast, hend, List.getD_append_right _ _ _ _ (le_refl _), Nat.sub_self, List.getD_cons_zero]
  · rw [if_neg hlast, h.tail j (by omega), List.getD_append _ _ _ _ (by omega)]

/-- An accepted UPDATE below the limit. -/
theorem Absorbed.step_update {b : Byte} (h : Absorbed r (encode (.update b) :: words) msg s)
    (hlimit : msg.length + 1 < 2 ^ 61) :
    step s = .next { absorbByte b { s with inputs := issue words } with rspValid := false } := by
  have hbelow : s.nbytes ≠ Config.maxMsgBytes := by
    rw [ne_eq, eq_maxMsgBytes_iff, h.count]
    omega
  rw [step_of_issued h.ready h.pending, commandEffect,
    updateEffect_of_below (s := { s with inputs := issue words }) h.inAbsorb hbelow, responds]

/-- What every UPDATE of the message keeps. -/
theorem Absorbed.hashing_absorbByte {b : Byte} (h : Absorbed r (encode (.update b) :: words) msg s)
    (hlimit : msg.length + 1 < 2 ^ 61) :
    Hashing r words (msg ++ [b]) { absorbByte b { s with inputs := issue words } with rspValid := false } where
  pending := absorbByte_inputs ..
  bufCanonical := by
    show (absorbByte ..).buf.wf = true
    rw [absorbByte_buf]
    exact Memory.wf_write h.bufCanonical s.fill_lt b
  count := by
    have hcount := h.count
    show (absorbByte ..).nbytes.toNat = _
    rw [absorbByte_nbytes, List.length_append, List.length_singleton]
    bv_omega
  noUsage := (absorbByte_errUsage ..).trans h.noUsage
  noIllegal := (absorbByte_errIllegal ..).trans h.noIllegal
  noLen := (absorbByte_errLen ..).trans h.noLen
  record := (absorbByte_raised ..).trans h.record

/-- A byte that does not complete its block is stored and counted (R76). -/
theorem Absorbed.of_absorbByte {b : Byte} (h : Absorbed r (encode (.update b) :: words) msg s)
    (hlimit : msg.length + 1 < 2 ^ 61) (hpart : msg.length % 64 ≠ 63) :
    Absorbed r words (msg ++ [b]) { absorbByte b { s with inputs := issue words } with rspValid := false } := by
  have hfill : State.fill { s with inputs := issue words } ≠ 63 := h.fill_eq.trans_ne hpart
  have hdiv : (msg ++ [b]).length / 64 = msg.length / 64 := by simp; omega
  have hmod : (msg ++ [b]).length % 64 = msg.length % 64 + 1 := by simp; omega
  refine { h.hashing_absorbByte hlimit with
    ready := ((absorbByte_seq ..).trans (if_neg hfill)).trans h.ready
    inAbsorb := (absorbByte_phase ..).trans h.inAbsorb
    chained := ?_, tail := fun j hj => ?_ }
  · rw [hdiv, chain_append msg [b] _ (by omega)]
    exact (absorbByte_hs ..).trans h.chained
  · rw [hdiv]
    show (absorbByte ..).buf.read j = _
    rw [absorbByte_buf]
    exact h.read_write b (by omega)

/-- The 64th byte of a block starts its block event (R76). -/
theorem Absorbed.compressing_absorbByte {b : Byte} (h : Absorbed r (encode (.update b) :: words) msg s)
    (hlimit : msg.length + 1 < 2 ^ 61) (hfull : msg.length % 64 = 63) :
    Compressing r words (msg ++ [b]) (msg.length / 64)
      { absorbByte b { s with inputs := issue words } with rspValid := false } := by
  have hfill : State.fill { s with inputs := issue words } = 63 := h.fill_eq.trans hfull
  refine { h.hashing_absorbByte hlimit with
    starts := (absorbByte_seq ..).trans (if_pos hfill)
    inAbsorb := (absorbByte_phase ..).trans h.inAbsorb
    chained := ?_, block := fun j hj => ?_ }
  · rw [chain_append msg [b] _ (by omega)]
    exact (absorbByte_hs ..).trans h.chained
  · rw [padBlock, pad_getD_message _ (by simp; omega)]
    show (absorbByte ..).buf.read j = _
    rw [absorbByte_buf]
    exact h.read_write b (by omega)

/-- The block event of a complete message block leads back to S_IDLE in ABSORB (R94). -/
theorem Compressing.absorbed (h : Compressing r words msg k s) (hc : s.cont = .absorb)
    (hk : msg.length = 64 * (k + 1)) : ∃ t, runSteps 66 s = .next t ∧ Absorbed r words msg t := by
  obtain ⟨ws, w, hrun, hchain⟩ := h.run
  have hcont : (s.afterRounds 64 ws w).cont = .absorb := hc
  have hdiv : msg.length / 64 = k + 1 := by omega
  refine ⟨_, hrun, { (h.toHashing.afterRounds 64 ws w).sAcc with
    ready := ?_, inAbsorb := ?_, chained := ?_, tail := fun j hj => by omega }⟩
  · rw [sAcc_of_absorb hcont]
  · rw [sAcc_of_absorb hcont]
    exact h.inAbsorb
  · rw [sAcc_hs, hdiv]
    exact hchain

/-- UPDATE takes one step and, when the byte completes a block, the 66 of its block event (R105). -/
theorem Absorbed.run_update {b : Byte} (h : Absorbed r (encode (.update b) :: words) msg s)
    (hlimit : msg.length + 1 < 2 ^ 61) :
    ∃ t, runSteps (1 + 66 * ((msg.length + 1) / 64 - msg.length / 64)) s = .next t ∧
      Absorbed r words (msg ++ [b]) t := by
  have hstep := h.step_update hlimit
  by_cases hfull : msg.length % 64 = 63
  · have hu := h.compressing_absorbByte hlimit hfull
    have hcont : (absorbByte b { s with inputs := issue words }).cont = .absorb :=
      (absorbByte_cont ..).trans (if_pos (h.fill_eq.trans hfull))
    obtain ⟨t, hrun, ht⟩ := hu.absorbed hcont (by simp; omega)
    refine ⟨t, ?_, ht⟩
    rw [show 1 + 66 * ((msg.length + 1) / 64 - msg.length / 64) = 66 + 1 by omega]
    exact (run_succ 66 hstep).trans hrun
  · refine ⟨_, ?_, h.of_absorbByte hlimit hfull⟩
    rw [show 1 + 66 * ((msg.length + 1) / 64 - msg.length / 64) = 0 + 1 by omega]
    exact run_succ 0 hstep

/-- The UPDATEs of further bytes, with a block event for each block they complete (R75). -/
theorem Absorbed.run_updates {more : List Byte} (h : Absorbed r (updatesWords more ++ words) msg s)
    (hlimit : msg.length + more.length < 2 ^ 61) :
    ∃ t, runSteps (more.length + 66 * ((msg.length + more.length) / 64 - msg.length / 64)) s = .next t ∧
      Absorbed r words (msg ++ more) t := by
  induction more generalizing msg s with
  | nil =>
    refine ⟨s, ?_, by simpa [updatesWords] using h⟩
    simp [run_zero]
  | cons b more ih =>
    rw [List.length_cons] at hlimit ⊢
    have hone : (msg ++ [b]).length = msg.length + 1 := List.length_append
    obtain ⟨t, hrun, ht⟩ := Absorbed.run_update (b := b) (words := updatesWords more ++ words) h (by omega)
    obtain ⟨u, hrun', hu⟩ := ih ht (by omega)
    refine ⟨u, ?_, by simpa using hu⟩
    rw [← run_add hrun] at hrun'
    rw [← hrun', hone]
    congr 1
    omega

/-! ### FINAL -/

/-- Final padding makes BUF the next block of the padded message (R78). -/
theorem Absorbed.read_finalPad (h : Absorbed r words msg s) {j : Nat} (hj : j < 64) :
    (finalPad s).buf.read j = padBlock msg (msg.length / 64) j := by
  have hblocks : numBlocks msg.length = (msg.length + 8) / 64 + 1 := rfl
  rw [Machine.read_finalPad h.bufCanonical hj, h.fill_eq]
  obtain hlt | rfl | hgt := Nat.lt_trichotomy j (msg.length % 64)
  · rw [if_pos hlt, h.tail j hlt, padBlock, pad_getD_message _ (by omega)]
  · rw [if_neg (lt_irrefl _), if_pos rfl, padBlock, Nat.div_add_mod, pad_getD_terminator]
  · rw [if_neg (by omega), if_neg (by omega)]
    by_cases hend : msg.length % 64 ≤ 55 ∧ 56 ≤ j
    · rw [if_pos hend, padBlock_lengthField h.count (by omega) hend.2 hj]
    · rw [if_neg hend, padBlock_zero msg (by omega) (by omega)]

/-- FINAL starts the block event of the first padding block (R106). -/
theorem Absorbed.compressing_final (h : Absorbed r (encode .final :: words) msg s) :
    ∃ t, step s = .next t ∧ Compressing r words msg (msg.length / 64) t ∧
      t.cont = if msg.length % 64 ≤ 55 then .done else .pad2 := by
  have h' : Absorbed r words msg { s with inputs := issue words } := { h with pending := rfl }
  refine ⟨{ finalPad { s with inputs := issue words } with rspValid := false }, ?_, ?_, ?_⟩
  · rw [step_of_issued h.ready h.pending, commandEffect, finalEffect_of_absorb h'.inAbsorb, responds]
  · exact {
      pending := finalPad_inputs _
      bufCanonical := wf_finalPad (s := { s with inputs := issue words }) h.bufCanonical
      count := (congrArg BitVec.toNat (finalPad_nbytes _)).trans h.count
      noUsage := (finalPad_errUsage _).trans h.noUsage
      noIllegal := (finalPad_errIllegal _).trans h.noIllegal
      noLen := (finalPad_errLen _).trans h.noLen
      record := (finalPad_raised _).trans h.record
      starts := finalPad_seq _
      inAbsorb := (finalPad_phase _).trans h.inAbsorb
      chained := (finalPad_hs _).trans h.chained
      block := fun j hj => h'.read_finalPad hj }
  · rw [← h'.fill_eq]
    exact finalPad_cont _

/-- The block event of the last block ends the computation (R94, R96). -/
theorem Compressing.finished (h : Compressing r words msg k s) (hc : s.cont = .done)
    (hk : k + 1 = numBlocks msg.length) : ∃ t, runSteps 66 s = .next t ∧ Finished r words msg t := by
  obtain ⟨ws, w, hrun, hchain⟩ := h.run
  have hcont : (s.afterRounds 64 ws w).cont = .done := hc
  refine ⟨_, hrun, { (h.toHashing.afterRounds 64 ws w).sAcc with ready := ?_, inDone := ?_, hashed := ?_ }⟩
  · rw [sAcc_of_done hcont]
  · rw [sAcc_of_done hcont]
  · rw [sAcc_hs, hashOf, ← hk]
    exact hchain

/-- The block event of the first of two padding blocks starts that of the second, which holds zeros and the length field
(R79, R94). -/
theorem Compressing.second (h : Compressing r words msg k s) (hc : s.cont = .pad2) (hpast : msg.length < 64 * (k + 1))
    (hk : k + 2 = numBlocks msg.length) :
    ∃ t, runSteps 66 s = .next t ∧ Compressing r words msg (k + 1) t ∧ t.cont = .done := by
  obtain ⟨ws, w, hrun, hchain⟩ := h.run
  have hcont : (s.afterRounds 64 ws w).cont = .pad2 := hc
  refine ⟨_, hrun, { (h.toHashing.afterRounds 64 ws w).sAcc with
    starts := ?_, inAbsorb := ?_, chained := ?_, block := fun j hj => ?_ }, ?_⟩
  · rw [sAcc_of_pad2 hcont]
  · rw [sAcc_of_pad2 hcont]
    exact h.inAbsorb
  · rw [sAcc_hs]
    exact hchain
  · have hbuf : (sAcc (s.afterRounds 64 ws w)).buf = writeLength 0 s.buf s.nbytes := by
      rw [sAcc_buf, if_pos hcont, afterRounds_buf, afterRounds_nbytes]
    rw [hbuf, read_secondBlock h.bufCanonical s.nbytes hj]
    by_cases h56 : j < 56
    · rw [if_pos h56, padBlock_zero msg (by omega) (by omega)]
    · rw [if_neg h56, padBlock_lengthField h.count hk (by omega) hj]
  · rw [sAcc_of_pad2 hcont]

/-- FINAL takes one step and the 66 of each block of the padded message that UPDATE left (R106). -/
theorem Absorbed.run_final (h : Absorbed r (encode .final :: words) msg s) :
    ∃ t, runSteps (1 + 66 * (numBlocks msg.length - msg.length / 64)) s = .next t ∧ Finished r words msg t := by
  have hblocks : numBlocks msg.length = (msg.length + 8) / 64 + 1 := rfl
  obtain ⟨u, hstep, hu, hcont⟩ := h.compressing_final
  by_cases hone : msg.length % 64 ≤ 55
  · rw [if_pos hone] at hcont
    obtain ⟨t, hrun, ht⟩ := hu.finished hcont (by omega)
    refine ⟨t, ?_, ht⟩
    rw [show 1 + 66 * (numBlocks msg.length - msg.length / 64) = 66 + 1 by omega]
    exact (run_succ 66 hstep).trans hrun
  · rw [if_neg hone] at hcont
    obtain ⟨v, hrun, hv, hdone⟩ := hu.second hcont (by omega) (by omega)
    obtain ⟨t, hrun', ht⟩ := hv.finished hdone (by omega)
    refine ⟨t, ?_, ht⟩
    rw [show 1 + 66 * (numBlocks msg.length - msg.length / 64) = (66 + 66) + 1 by omega]
    exact ((run_succ (66 + 66) hstep).trans (run_add hrun)).trans hrun'

/-! ### READ -/

/-- READ answers a byte of the digest and leaves the rest (R107). -/
theorem Finished.step_read {idx : BitVec 5} (h : Finished r (encode (.read idx) :: words) msg s) :
    ∃ t, step s = .next t ∧ Finished r words msg t ∧ t.rspValid = true ∧
      t.rspData = digestByte (hashOf msg) idx := by
  refine ⟨_, step_of_issued h.ready h.pending, ?_⟩
  rw [commandEffect, readEffect_of_done (s := { s with inputs := issue words }) h.inDone]
  exact ⟨{ h with pending := rfl }, rfl, congrArg (digestByte · idx) h.hashed⟩

/-- READ n of the READs of READALL. -/
theorem Finished.step_readAll {n : Nat} (hn : n < 32) (h : Finished r (readAllWords.drop n) msg s) :
    ∃ t, step s = .next t ∧ Finished r (readAllWords.drop (n + 1)) msg t ∧ t.rspValid = true ∧
      t.rspData = digestByte (hashOf msg) (BitVec.ofNat 5 n) := by
  have hlength : n < readAllWords.length := by simpa [readAllWords] using hn
  rw [List.drop_eq_getElem_cons hlength, readAllWords_getElem] at h
  exact h.step_read

theorem Finished.run_readAll {n : Nat} (hn : n ≤ 32) (h : Finished r readAllWords msg s) :
    ∃ t, runSteps n s = .next t ∧ Finished r (readAllWords.drop n) msg t := by
  induction n with
  | zero => exact ⟨s, rfl, h⟩
  | succ n ih =>
    obtain ⟨t, hrun, ht⟩ := ih (by omega)
    obtain ⟨u, hstep, hu, -⟩ := ht.step_readAll (by omega)
    exact ⟨u, (run_add hrun).trans (run_succ 0 hstep), hu⟩

/-- The response to READ i (R107). -/
theorem Finished.run_response (h : Finished r readAllWords msg s) (i : BitVec 5) :
    ∃ t, runSteps (i.toNat + 1) s = .next t ∧ t.rspValid = true ∧ t.rspData = digestByte (hashOf msg) i := by
  obtain ⟨t, hrun, ht⟩ := h.run_readAll (n := i.toNat) (by omega)
  obtain ⟨u, hstep, -, hvalid, hdata⟩ := ht.step_readAll (by omega)
  rw [BitVec.ofNat_toNat, BitVec.setWidth_eq] at hdata
  exact ⟨u, (run_add hrun).trans (run_succ 0 hstep), hvalid, hdata⟩

/-- With no error, in DONE and with BUSY = 0, STATUS is 0x44 (R20). -/
theorem Finished.status_eq (h : Finished r words msg s) : s.status = 0x44#8 := by
  have hbusy : s.busy = false := (not_busy_iff s).mpr h.ready
  have hvalid : s.digestValid = true := (digestValid_iff s).mpr h.inDone
  rw [State.status, hvalid, h.noLen, h.noIllegal, h.noUsage, h.inDone, hbusy]
  rfl

/-! ### The command stream -/

/-- INIT, the UPDATEs and FINAL of a message on an idle core (R111). -/
theorem run_absorbWords (hidle : s.seq = .idle) (hw : s.buf.wf = true) (hlimit : msg.length < 2 ^ 61)
    (hin : s.inputs = issue (absorbWords msg ++ words)) :
    ∃ t, runSteps (msg.length + 66 * numBlocks msg.length + 2) s = .next t ∧ Finished s.raised words msg t := by
  have hblocks : numBlocks msg.length = (msg.length + 8) / 64 + 1 := rfl
  have hwords : absorbWords msg ++ words = encode .init :: (updatesWords msg ++ encode .final :: words) := by
    simp [absorbWords]
  rw [hwords] at hin
  obtain ⟨t, hstep, ht⟩ := absorbed_of_init hidle hin hw
  obtain ⟨u, hrun, hu⟩ := ht.run_updates (by simpa using hlimit)
  obtain ⟨v, hrun', hv⟩ := hu.run_final
  refine ⟨v, ?_, hv⟩
  rw [← run_add hrun, ← run_succ _ hstep] at hrun'
  rw [← hrun']
  congr 1
  simp only [List.length_nil, List.nil_append, Nat.zero_add, Nat.zero_div, Nat.sub_zero]
  omega

end

/-- Settles O53: the running block events end, then INIT, the UPDATEs and FINAL lead to DONE with the hash state in HS,
and the READs answer its bytes. -/
theorem hashCommandStream : Obligations.HashCommandStream := by
  unfold Obligations.HashCommandStream
  intro s msg hinv hlimit hin
  obtain ⟨t, hdrain, hidle, hint, hraised, hw⟩ :=
    run_microStepsLeft rfl hinv.roundIndex hinv.bufCanonical (hin ▸ hostHolds_issue _)
  obtain ⟨u, hhash, hu⟩ := run_absorbWords hidle hw hlimit (hint.trans hin)
  have hrun (n : Nat) :
      runSteps (s.microStepsLeft + (msg.length + 66 * numBlocks msg.length + 2 + n)) s = runSteps n u :=
    (run_add hdrain).trans (run_add hhash)
  refine ⟨s.microStepsLeft, microStepsLeft_le s, microStepsLeft_of_idle, fun i => ?_, ?_⟩
  · obtain ⟨v, hread, hvalid, hdata⟩ := hu.run_response i
    refine ⟨v, ?_, hvalid, hdata⟩
    rw [← hread, ← hrun]
    congr 1
    omega
  · obtain ⟨v, hread, hv⟩ := hu.run_readAll (le_refl 32)
    exact ⟨v, (hrun 32).trans hread, ⟨hv.pending, (not_busy_iff v).mpr hv.ready⟩, hv.inDone, hv.hashed, hv.count,
      hv.status_eq, hv.record.trans hraised⟩

end Sys2Proof.Machine

/-! ## Proofs about the errors (60_exceptions.md)

The three flags are read through one function, `CmdError.flag`, so that R119 is argued once for all of them. What a
refused command does is said by the rules of UPDATE, FINAL and READ. -/

namespace Sys2Proof.Machine

/-! ### The error flags -/

/-- The sticky flag of an error (10_state.md R19). -/
def CmdError.flag : CmdError → State → Bool
  | .usage => State.errUsage
  | .illegal => State.errIllegal
  | .len => State.errLen

/-- Raising an error sets its own flag and keeps the others (R117). -/
theorem flag_raise (k e : CmdError) (s : State) : k.flag (raise e s) = (e == k || k.flag s) := by
  cases k with
  | usage => exact raise_errUsage e s
  | illegal => exact raise_errIllegal e s
  | len => exact raise_errLen e s

theorem flag_absorbByte (k : CmdError) (b : Byte) (s : State) : k.flag (absorbByte b s) = k.flag s := by
  cases k
  exacts [absorbByte_errUsage b s, absorbByte_errIllegal b s, absorbByte_errLen b s]

theorem flag_finalPad (k : CmdError) (s : State) : k.flag (finalPad s) = k.flag s := by
  cases k
  exacts [finalPad_errUsage s, finalPad_errIllegal s, finalPad_errLen s]

theorem flag_sAcc (k : CmdError) (s : State) : k.flag (sAcc s) = k.flag s := by
  cases k
  exacts [sAcc_errUsage s, sAcc_errIllegal s, sAcc_errLen s]

/-- INIT is the only command that clears a flag (R119). -/
theorem CommandOutcome.flag_sticky {s t : State} {i : Instr} (h : CommandOutcome s i t) (hi : i ≠ .init)
    {k : CmdError} (hk : k.flag s = true) : k.flag t = true := by
  have hraise (e : CmdError) : k.flag (raise e s) = true := by rw [flag_raise, hk, Bool.or_true]
  cases h with
  | opens => exact absurd rfl hi
  | holds => exact hk
  | absorbs b => rw [flag_absorbByte, hk]
  | overflows => exact hraise .len
  | pads => rw [flag_finalPad, hk]
  | answers => cases k <;> exact hk
  | misreads => cases k <;> exact hraise .usage
  | discards _ e => exact hraise e

theorem microStep_flag {s t : State} (h : microStep s = .next t) (k : CmdError) : k.flag t = k.flag s :=
  microStep_keeps k.flag (fun _ => by cases k <;> rfl) (fun _ _ _ => by cases k <;> rfl) (flag_sAcc k) h

/-- The host's edges and RSP_VALID are no part of the flags. -/
theorem flag_withInputs (k : CmdError) (s : State) (edges : List HostEdge) :
    k.flag { s with inputs := edges } = k.flag s := by cases k <;> rfl

theorem flag_withRspValid (k : CmdError) (s : State) (r : Bool) : k.flag { s with rspValid := r } = k.flag s := by
  cases k <;> rfl

/-- A step that is no reset edge and accepts no INIT clears no flag (R119). -/
theorem step_flag_sticky {s t : State} (h : step s = .next t) (hr : ¬ resetComing s)
    (hinit : ∀ cw rest, accepts s cw rest → decode cw ≠ .init) {k : CmdError} (hk : k.flag s = true) :
    k.flag t = true := by
  obtain ⟨cw, rest, u, hacc, hu, rfl⟩ | ⟨rest, rfl⟩ | ⟨rest, hm⟩ := step_next_noReset h hr
  · rw [flag_withRspValid]
    exact hu.flag_sticky (hinit cw rest hacc) ((flag_withInputs k s rest).trans hk)
  · rw [flag_withInputs, hk]
  · rw [microStep_flag hm, flag_withInputs, hk]

/-- A reset edge is the reset effect, whatever the core was doing (70_reset_and_hazards.md R131). -/
theorem step_of_reset {s : State} (hr : resetComing s) :
    ∃ edges, step s = .next (resetEffect { s with inputs := edges }) := by
  obtain ⟨e, rest, hin, he⟩ := hr
  exact ⟨e.unaccepted rest, by simp only [step, clockEdge, hin, edgeWith, he, if_true]⟩

/-- An edge that accepts INIT opens a computation (45_commands.md R104). -/
theorem step_of_accepts_init {s : State} {cw : CmdWord} {rest : List HostEdge} (hacc : accepts s cw rest)
    (hi : decode cw = .init) :
    step s = .next { openComputation { s with inputs := rest } with rspValid := false } := by
  rw [step_of_accepts hacc, hi]
  obtain ⟨hidle, -⟩ := hacc
  exact exec_of_idle (s := { s with inputs := rest }) hidle .init

/-! ### The obligations -/

/-- Settles O49: the first half is `step_flag_sticky` for each flag; the reset effect and INIT both write 0 to all
three. -/
theorem errorFlagsAreSticky : Obligations.ErrorFlagsAreSticky := by
  unfold Obligations.ErrorFlagsAreSticky
  refine ⟨fun s t h hr hinit => ?_, fun s t h hclear => ?_⟩
  · have sticky (k : CmdError) (hk : k.flag s = true) : k.flag t = true := step_flag_sticky h hr hinit hk
    exact ⟨sticky .usage, sticky .illegal, sticky .len⟩
  · obtain hr | ⟨cw, rest, hacc, hi⟩ := hclear
    · obtain ⟨edges, hstep⟩ := step_of_reset hr
      cases hstep.symm.trans h
      exact ⟨rfl, rfl, rfl⟩
    · cases (step_of_accepts_init hacc hi).symm.trans h
      exact ⟨rfl, rfl, rfl⟩

/-- Settles O18: the clauses on a wrong PHASE of the rules of FINAL, UPDATE and READ. -/
theorem usageErrors : Obligations.UsageErrors := by
  unfold Obligations.UsageErrors
  obtain ⟨-, hfinal, -⟩ := finalCommand
  obtain ⟨-, hupdate⟩ := updateCommand
  obtain ⟨-, hread⟩ := readCommand
  refine ⟨fun s i hidle hp hi => ?_, fun s idx hidle hp => ?_⟩
  · obtain rfl | ⟨b, rfl⟩ := hi
    · exact hfinal s hidle hp
    · obtain ⟨husage, -⟩ := hupdate s b hidle
      exact husage hp
  · obtain ⟨-, husage⟩ := hread s idx hidle
    exact husage hp

/-- Settles O19: FAULT is neither ABSORB nor DONE, so its commands are usage errors; of the events that change PHASE,
S_ACC and UPDATE at the limit happen in ABSORB only. -/
theorem lengthError : Obligations.LengthError := by
  unfold Obligations.LengthError
  obtain ⟨-, hupdate⟩ := updateCommand
  obtain ⟨hwrite, hread⟩ := usageErrors
  obtain ⟨-, hchange⟩ := phaseChangesOnlyAt
  refine ⟨fun s b hidle hp hlimit => ?_, fun s i hidle hp hi => ?_, fun s t hinv hp h hleft => ?_⟩
  · obtain ⟨-, hlen, -⟩ := hupdate s b hidle
    exact hlen hp hlimit
  · have habsorb : s.phase ≠ .absorb := by rw [hp]; nofun
    have hdone : s.phase ≠ .done := by rw [hp]; nofun
    obtain hfinal | hbyte | ⟨idx, rfl⟩ := hi
    · exact ⟨_, hwrite s i hidle habsorb (.inl hfinal), rfl, hp⟩
    · exact ⟨_, hwrite s i hidle habsorb (.inr hbyte), rfl, hp⟩
    · obtain ⟨v, hexec⟩ := hread s idx hidle hdone
      exact ⟨_, hexec, rfl, hp⟩
  · obtain ⟨-, hr⟩ | ⟨-, hinit⟩ | ⟨-, hacc, -⟩ | ⟨hfault, -⟩ := hchange s t h (hp ▸ hleft)
    · exact .inl hr
    · exact .inr hinit
    · have habsorb := hinv.busyInAbsorb (by rw [hacc]; nofun)
      cases hp.symm.trans habsorb
    · exact absurd hfault hleft

end Sys2Proof.Machine

/-! ## Proofs about reset (70_reset_and_hazards.md)

A reset edge is the reset effect over the edges the host still drives, so the rules about reset split in two: what a
state shows after the reset effect, and what becomes of the host's offer. -/

namespace Sys2Proof.Machine

/-! ### What a state shows after the reset effect -/

@[simp] theorem resetEffect_busy (s : State) : (resetEffect s).busy = false := rfl

@[simp] theorem resetEffect_digestValid (s : State) : (resetEffect s).digestValid = false := rfl

/-- STATUS is computed from PHASE, SEQ and the flags alone, and the reset effect fixes all of them (R132). -/
@[simp] theorem resetEffect_status (s : State) : (resetEffect s).status = 0x00#8 := by
  rw [State.status, resetEffect_digestValid, resetEffect_errLen, resetEffect_errIllegal, resetEffect_errUsage,
    resetEffect_phase, resetEffect_busy]
  rfl

@[simp] theorem resetEffect_digest (s : State) : (resetEffect s).digest = none := digest_of_not_done nofun

@[simp] theorem resetEffect_cmdReady (s : State) (rst : Bool) : (resetEffect s).cmdReady rst = !rst := rfl

/-! ### The edge -/

/-- While rst = 1 the core accepts nothing (R131). -/
theorem cmdReady_of_rst (s : State) : s.cmdReady true = false := Bool.and_false _

/-- A reset edge is the reset effect, and the host goes on as after any edge that did not accept its offer (R131). -/
theorem step_of_rst {s : State} {e : HostEdge} {rest : List HostEdge} (hin : s.inputs = e :: rest)
    (he : e.rst = true) : step s = .next (resetEffect { s with inputs := e.unaccepted rest }) := by
  simp only [step, clockEdge, hin, edgeWith, he, if_true]

/-- A held word stays on the port until it is accepted (R100). -/
theorem unaccepted_of_hold {e : HostEdge} {cw : CmdWord} (h : e.offer = .hold cw) (rest : List HostEdge) :
    e.unaccepted rest = ⟨false, .hold cw⟩ :: rest := by
  simp only [HostEdge.unaccepted, h]

/-- An offer the host does not hold is gone after its edge (R138). -/
theorem unaccepted_of_not_hold {e : HostEdge} (h : ∀ cw, e.offer ≠ .hold cw) (rest : List HostEdge) :
    e.unaccepted rest = rest := by
  cases ho : e.offer with
  | hold cw => exact absurd ho (h cw)
  | quiet => simp only [HostEdge.unaccepted, ho]
  | once cw => simp only [HostEdge.unaccepted, ho]

/-! ### The obligations -/

/-- Settles O13: the next state is the reset effect, which shows what R132 fixes, with the offer as the edge leaves
it. -/
theorem resetEdgeWins : Obligations.ResetEdgeWins := by
  unfold Obligations.ResetEdgeWins
  intro s e rest hin he
  refine ⟨cmdReady_of_rst s, _, step_of_rst hin he, resetEffect_phase _, resetEffect_seq _, resetEffect_errUsage _,
    resetEffect_errIllegal _, resetEffect_errLen _, resetEffect_rspValid _, resetEffect_status _,
    resetEffect_digestValid _, resetEffect_digest _, resetEffect_cmdReady _ false, resetEffect_raised _,
    fun cw hhold => ?_, fun hgone => ?_⟩
  · exact (resetEffect_inputs _).trans (unaccepted_of_hold hhold rest)
  · exact (resetEffect_inputs _).trans (unaccepted_of_not_hold hgone rest)

end Sys2Proof.Machine

/-! ## Proofs about the canonical words and the command programs (30_encoding.md) -/

namespace Sys2Proof

/-! ### The words of a command program -/

/-- A row of the opcode map as a number: OP stands above the eight DATA bits (R52). -/
theorem commandWord_toNat (op : BitVec 3) (data : Byte) :
    (commandWord op data).toNat = 2 ^ 8 * op.toNat + data.toNat := by
  rw [commandWord, BitVec.toNat_append, ← Nat.shiftLeft_add_eq_or_of_lt data.isLt, Nat.shiftLeft_eq, Nat.mul_comm]

/-- UPDATE's word is its row's pattern with BYTE added (R56). -/
theorem encode_update (b : Byte) : encode (.update b) = BitVec.ofNat 11 (0x200 + b.toNat) := by
  apply BitVec.eq_of_toNat_eq
  have hb := b.isLt
  simp only [encode, commandWord_toNat, BitVec.toNat_ofNat]
  omega

/-- READ's word is its row's pattern with IDX added (R56). -/
theorem encode_read (idx : BitVec 5) : encode (.read idx) = BitVec.ofNat 11 (0x400 + idx.toNat) := by
  apply BitVec.eq_of_toNat_eq
  have hidx := idx.isLt
  have hdata : (0b000#3 ++ idx).toNat = idx.toNat := by
    rw [BitVec.toNat_append, BitVec.toNat_zero, Nat.zero_shiftLeft, Nat.zero_or]
  simp only [encode, commandWord_toNat, hdata, BitVec.toNat_ofNat]
  omega

theorem updatesWords_eq (bytes : List Byte) :
    updatesWords bytes = bytes.map fun b => BitVec.ofNat 11 (0x200 + b.toNat) :=
  List.map_congr_left fun b _ => encode_update b

theorem readAllWords_eq : readAllWords = (List.range 32).map fun i => BitVec.ofNat 11 (0x400 + i) := by
  refine List.map_congr_left fun i hi => ?_
  have hlt : i < 32 := List.mem_range.mp hi
  rw [encode_read, BitVec.toNat_ofNat, Nat.mod_eq_of_lt hlt]

/-! ### What a line may emit -/

/-- The word of a command that is not reserved: below the reserved rows and with zeros in the ignored bits (R59). -/
def IsPlainWord (cw : CmdWord) : Prop := cw.toNat < 0x600 ∧ cw &&& ignoredBits (decode cw) = 0x000#11

theorem isPlainWord_encode {i : Instr} (h6 : i ≠ .reserved6) (h7 : i ≠ .reserved7) : IsPlainWord (encode i) := by
  obtain ⟨-, hignored⟩ := canonicalWord i
  refine ⟨?_, by rw [decode_encode, hignored]⟩
  by_contra hge
  obtain h | h := decode_of_reserved (Nat.le_of_not_lt hge) <;> rw [decode_encode] at h
  · exact h6 h
  · exact h7 h

theorem isPlainWord_of_mem_updatesWords {bytes : List Byte} {cw : CmdWord} (h : cw ∈ updatesWords bytes) :
    IsPlainWord cw := by
  obtain ⟨b, -, rfl⟩ := List.mem_map.mp h
  exact isPlainWord_encode nofun nofun

theorem isPlainWord_of_mem_readAllWords {cw : CmdWord} (h : cw ∈ readAllWords) : IsPlainWord cw := by
  obtain ⟨i, -, rfl⟩ := List.mem_map.mp h
  exact isPlainWord_encode nofun nofun

theorem isPlainWord_of_mem_absorbWords {bytes : List Byte} {cw : CmdWord} (h : cw ∈ absorbWords bytes) :
    IsPlainWord cw := by
  rw [absorbWords, List.mem_cons, List.mem_append, List.mem_singleton] at h
  obtain rfl | h | rfl := h
  · exact isPlainWord_encode nofun nofun
  · exact isPlainWord_of_mem_updatesWords h
  · exact isPlainWord_encode nofun nofun

/-! ### `assemble`, line by line (R59) -/

theorem assemble_update_of_le {b : Nat} (h : b ≤ 255) :
    assemble (.update b) = .ok [encode (.update (BitVec.ofNat 8 b))] := if_pos h

theorem assemble_read_of_le {i : Nat} (h : i ≤ 31) : assemble (.read i) = .ok [encode (.read (BitVec.ofNat 5 i))] :=
  if_pos h

theorem assemble_word_of_le {w : Nat} (h : w ≤ 0x7FF) : assemble (.word w) = .ok [BitVec.ofNat 11 w] := if_pos h

/-- An operand check that fails emits no words. -/
theorem ite_error_eq_ok_iff {p : Prop} [Decidable p] {ws words : List CmdWord} {e : AsmReject} :
    (if p then Except.ok ws else Except.error e) = Except.ok words ↔ p ∧ ws = words := by
  by_cases h : p <;> simp [h]

/-- A line assembles exactly when it is well formed. -/
theorem assemble_isOk_iff (line : AsmLine) : (∃ words, assemble line = .ok words) ↔ line.wellFormed = true := by
  cases line with
  | update b => simp [assemble, AsmLine.wellFormed, ite_error_eq_ok_iff]
  | read i => simp [assemble, AsmLine.wellFormed, ite_error_eq_ok_iff]
  | word w => simp [assemble, AsmLine.wellFormed, ite_error_eq_ok_iff]
  | _ => exact iff_of_true ⟨_, rfl⟩ rfl

/-- A line that is no raw word emits only plain words. -/
theorem isPlainWord_of_assemble {line : AsmLine} {words : List CmdWord} (h : assemble line = .ok words)
    (hraw : ∀ w, line ≠ .word w) {cw : CmdWord} (hcw : cw ∈ words) : IsPlainWord cw := by
  cases line with
  | word w => exact absurd rfl (hraw w)
  | update b =>
    obtain ⟨-, rfl⟩ := ite_error_eq_ok_iff.mp h
    obtain rfl := List.mem_singleton.mp hcw
    exact isPlainWord_encode nofun nofun
  | read i =>
    obtain ⟨-, rfl⟩ := ite_error_eq_ok_iff.mp h
    obtain rfl := List.mem_singleton.mp hcw
    exact isPlainWord_encode nofun nofun
  | updates bytes =>
    cases h
    exact isPlainWord_of_mem_updatesWords hcw
  | readAll =>
    cases h
    exact isPlainWord_of_mem_readAllWords hcw
  | hash bytes =>
    cases h
    obtain hcw | hcw := List.mem_append.mp hcw
    · exact isPlainWord_of_mem_absorbWords hcw
    · exact isPlainWord_of_mem_readAllWords hcw
  | _ =>
    cases h
    obtain rfl := List.mem_singleton.mp hcw
    exact isPlainWord_encode nofun nofun

/-! ### The rows of the opcode map (R56) -/

/-- The mask of the opcode map keeps OP and clears DATA. -/
theorem and_opMask (cw : CmdWord) : cw &&& 0x700#11 = commandWord (opField cw) 0#8 := by
  rw [← commandWord_fields (cw &&& 0x700#11)]
  have hop : opField (cw &&& 0x700#11) = opField cw :=
    (BitVec.extractLsb'_and ..).trans BitVec.and_allOnes
  have hdata : dataField (cw &&& 0x700#11) = 0#8 :=
    (BitVec.extractLsb'_and ..).trans BitVec.and_zero
  rw [hop, hdata]

/-- Every row is selected by OP alone. -/
theorem selects_eq_of_mem {r : OpcodeRow} (hr : r ∈ opcodeMap) (cw : CmdWord) :
    r.selects cw = (commandWord (opField cw) 0#8 == r.pattern) := by
  have hmask : ∀ r ∈ opcodeMap, r.mask = 0x700#11 := by decide
  rw [OpcodeRow.selects, hmask r hr, and_opMask]

theorem filter_selects_eq (cw : CmdWord) :
    (opcodeMap.filter fun r => r.selects cw) =
      opcodeMap.filter fun r => commandWord (opField cw) 0#8 == r.pattern :=
  List.filter_congr fun _ hr => selects_eq_of_mem hr cw

/-- OP alone names the mnemonic (R54). -/
theorem decode_mnemonic_eq (cw : CmdWord) : (decode cw).mnemonic = (decodeFields (opField cw) 0#8).mnemonic := by
  unfold decode decodeFields
  generalize (opField cw).toFin = row
  match row with
  | 0 | 1 | 2 | 3 | 4 | 5 | 6 | 7 => rfl

/-! ### The obligations -/

/-- Settles O1: the fields of a canonical word are those it was made of, and every row has its own canonical word. -/
theorem decodeOfEncode : Obligations.DecodeOfEncode := by
  unfold Obligations.DecodeOfEncode
  intro i
  obtain ⟨-, hignored⟩ := canonicalWord i
  exact ⟨decode_encode i, hignored⟩

/-- Settles O5: each line's operand check is its well-formedness, and the words it emits are canonical. -/
theorem assemblerRefusesOutOfRange : Obligations.AssemblerRefusesOutOfRange := by
  unfold Obligations.AssemblerRefusesOutOfRange
  refine ⟨assemble_isOk_iff, fun b hb => ?_, fun i hi => ?_, fun w hw => assemble_word_of_le hw,
    fun line words h hraw cw hcw => isPlainWord_of_assemble h hraw hcw⟩
  · rw [assemble_update_of_le hb, encode_update, BitVec.toNat_ofNat, Nat.mod_eq_of_lt (by omega)]
  · rw [assemble_read_of_le hi, encode_read, BitVec.toNat_ofNat, Nat.mod_eq_of_lt (by omega)]

/-- Settles O6: the pseudo-commands are lists of UPDATE and READ words, whose numbers `encode_update` and `encode_read`
give. -/
theorem pseudoCommandsExpand : Obligations.PseudoCommandsExpand := by
  unfold Obligations.PseudoCommandsExpand
  refine ⟨fun bytes => ?_, ?_, fun bytes => ?_⟩
  · rw [assemble, updatesWords_eq]
  · rw [assemble, readAllWords_eq]
  · have hinit : encode .init = 0x100#11 := by decide
    have hfinal : encode .final = 0x300#11 := by decide
    rw [assemble, absorbWords, updatesWords_eq, readAllWords_eq, hinit, hfinal, List.cons_append, List.append_assoc,
      List.singleton_append]

/-- Settles O2: a row is selected by the OP bits alone, and each of the eight values of OP has one row. -/
theorem everyWordSelectsOneRow : Obligations.EveryWordSelectsOneRow := by
  unfold Obligations.EveryWordSelectsOneRow
  intro cw
  rw [filter_selects_eq, decode_mnemonic_eq]
  generalize opField cw = op
  revert op
  decide

/-- Settles O4, by evaluating the decoder on the words of the table. -/
theorem specWordsDecode : Obligations.SpecWordsDecode := by
  unfold Obligations.SpecWordsDecode
  decide

end Sys2Proof

/-! ## Proofs about the canonical form of BUF (20_memory.md) -/

namespace Sys2Proof.Machine

/-- A listed byte in front reads back. -/
theorem Memory.read_head {a : Nat} {v : Byte} {m : Memory} : Memory.read ((a, v) :: m) a = v := if_pos rfl

/-- A canonical memory lists nothing below its first address. -/
theorem Memory.head_le {lo a i : Nat} {v : Byte} {m : Memory} (hm : wfFrom lo ((a, v) :: m) = true)
    (hi : Memory.read ((a, v) :: m) i ≠ unlisted) : a ≤ i := by
  obtain ⟨-, ha, hv, hrest⟩ := wfFrom_cons.mp hm
  by_contra hlt
  exact hi (read_below (wfFrom_cons.mpr ⟨le_refl a, ha, hv, hrest⟩) (Nat.lt_of_not_le hlt))

/-- Behind a common first cell, canonical memories that read alike go on with memories that read alike. -/
theorem Memory.read_tail_eq {a : Nat} {v : Byte} {m m' : Memory} (hm : wfFrom (a + 1) m = true)
    (hm' : wfFrom (a + 1) m' = true) (h : ∀ j, Memory.read ((a, v) :: m) j = Memory.read ((a, v) :: m') j) (j : Nat) :
    m.read j = m'.read j := by
  by_cases hj : a = j
  · rw [read_below hm (by omega), read_below hm' (by omega)]
  · have hread := h j
    rwa [read_cons, read_cons, if_neg hj, if_neg hj] at hread

/-- Canonical memories that read alike are the same list. -/
theorem Memory.eq_of_read_eq {lo : Nat} {m m' : Memory} (hm : wfFrom lo m = true) (hm' : wfFrom lo m' = true)
    (h : ∀ j, m.read j = m'.read j) : m = m' := by
  induction m generalizing lo m' with
  | nil =>
    cases m' with
    | nil => rfl
    | cons c' rest' =>
      obtain ⟨a', v'⟩ := c'
      obtain ⟨-, -, hv', -⟩ := wfFrom_cons.mp hm'
      exact absurd ((h a').trans read_head).symm hv'
  | cons c rest ih =>
    obtain ⟨a, v⟩ := c
    obtain ⟨-, -, hv, hrest⟩ := wfFrom_cons.mp hm
    cases m' with
    | nil => exact absurd (read_head.symm.trans (h a)) hv
    | cons c' rest' =>
      obtain ⟨a', v'⟩ := c'
      obtain ⟨-, -, hv', hrest'⟩ := wfFrom_cons.mp hm'
      have hle : a' ≤ a := head_le hm' (by rwa [← h a, read_head])
      have hge : a ≤ a' := head_le hm (by rwa [h a', read_head])
      obtain rfl : a = a' := by omega
      obtain rfl : v = v' := read_head.symm.trans ((h a).trans read_head)
      rw [ih hrest hrest' (read_tail_eq hrest hrest' h)]

/-- Settles O12: from index 64 up every canonical buffer reads as unlisted, so 64 equal bytes are equal reads
everywhere. -/
theorem canonicalBufDeterminedByBytes : Obligations.CanonicalBufDeterminedByBytes := by
  unfold Obligations.CanonicalBufDeterminedByBytes
  intro m m' hm hm' h
  refine Memory.eq_of_read_eq hm hm' fun j => ?_
  by_cases hj : j < 64
  · exact h j hj
  · rw [Memory.read_above hm (by omega), Memory.read_above hm' (by omega)]

end Sys2Proof.Machine

/-! ## Proofs about the frames of the commands (45_commands.md)

What a command can write is read off the relation `CommandOutcome`, and which flags it can set off `mayRaise`; the two
frames are put together from these. -/

namespace Sys2Proof.Machine

/-! ### The flags a command can set -/

/-- The errors a command can raise (60_exceptions.md R114 to R116). -/
def mayRaise : Instr → CmdError → Bool
  | .update _, .usage | .update _, .len | .final, .usage | .read _, .usage => true
  | .reserved6, .illegal | .reserved7, .illegal => true
  | _, _ => false

theorem mayRaise_usage_iff (i : Instr) :
    mayRaise i .usage = true ↔ (∃ b, i = .update b) ∨ i = .final ∨ ∃ idx, i = .read idx := by
  cases i <;> simp [mayRaise]

theorem mayRaise_illegal_iff (i : Instr) : mayRaise i .illegal = true ↔ i = .reserved6 ∨ i = .reserved7 := by
  cases i <;> simp [mayRaise]

theorem mayRaise_len_iff (i : Instr) : mayRaise i .len = true ↔ ∃ b, i = .update b := by
  cases i <;> simp [mayRaise]

theorem flag_drawRspData (k : CmdError) (s : State) : k.flag (drawRspData s) = k.flag s := by
  cases k <;> rfl

theorem flag_withRspData (k : CmdError) (s : State) (d : Byte) : k.flag { s with rspData := d } = k.flag s := by
  cases k <;> rfl

theorem flag_openComputation (k : CmdError) (s : State) : k.flag (openComputation s) = false := by
  cases k <;> rfl

theorem flag_raise_of_ne {k e : CmdError} (h : e ≠ k) (s : State) : k.flag (raise e s) = k.flag s := by
  rw [flag_raise, beq_false_of_ne h, Bool.false_or]

/-- A command other than INIT leaves the flag of an error it does not raise. -/
theorem flag_commandEffect {i : Instr} {k : CmdError} (hi : i ≠ .init) (hk : mayRaise i k = false) (s : State) :
    k.flag (commandEffect i s) = k.flag s := by
  have hother {e : CmdError} (he : mayRaise i e = true) : k.flag (raise e s) = k.flag s :=
    flag_raise_of_ne (fun h => by rw [← h, he] at hk; cases hk) s
  cases i with
  | nop => rfl
  | init => exact absurd rfl hi
  | update b =>
    show k.flag (updateEffect b s) = _
    obtain ⟨-, h⟩ | ⟨-, -, h⟩ | ⟨-, -, h⟩ := updateEffect_cases b s <;> rw [h]
    · exact hother rfl
    · exact hother rfl
    · exact flag_absorbByte k b s
  | final =>
    show k.flag (finalEffect s) = _
    obtain ⟨-, h⟩ | ⟨-, h⟩ := finalEffect_cases s <;> rw [h]
    · exact hother rfl
    · exact flag_finalPad k s
  | read idx =>
    show k.flag (readEffect idx s) = _
    obtain ⟨-, h⟩ | ⟨-, h⟩ := readEffect_cases idx s <;> rw [h]
    · exact (flag_drawRspData k _).trans (hother rfl)
    · exact flag_withRspData k s _
  | rdstat => exact flag_withRspData k s _
  | reserved6 => exact hother rfl
  | reserved7 => exact hother rfl

namespace CommandOutcome

variable {s t : State} {i : Instr}

/-- A command raises no error, clears all flags, or raises one error (R117, R119). -/
theorem flag_cases (h : CommandOutcome s i t) :
    (∀ k : CmdError, k.flag t = k.flag s) ∨ (∀ k : CmdError, k.flag t = false) ∨
    ∃ e, ∀ k : CmdError, k.flag t = (e == k || k.flag s) := by
  cases h with
  | holds => exact .inl fun _ => rfl
  | opens => exact .inr (.inl fun k => flag_openComputation k s)
  | absorbs b => exact .inl fun k => flag_absorbByte k b s
  | overflows => exact .inr (.inr ⟨_, fun k => flag_raise k .len s⟩)
  | pads => exact .inl fun k => flag_finalPad k s
  | answers _ d => exact .inl fun k => flag_withRspData k s d
  | misreads => exact .inr (.inr ⟨_, fun k => (flag_drawRspData k _).trans (flag_raise k .usage s)⟩)
  | discards _ e => exact .inr (.inr ⟨e, fun k => flag_raise k e s⟩)

/-- Two flags that one command newly sets are the same flag (R118). -/
theorem newFlag_unique (h : CommandOutcome s i t) {j k : CmdError} (hj : j.flag t ≠ j.flag s ∧ j.flag t = true)
    (hk : k.flag t ≠ k.flag s ∧ k.flag t = true) : j = k := by
  obtain hkeep | hclear | ⟨e, hraise⟩ := h.flag_cases
  · exact absurd (hkeep j) hj.1
  · cases (hclear j).symm.trans hj.2
  · have raised {l : CmdError} (hl : l.flag t ≠ l.flag s) : e = l := by
      by_contra hne
      exact hl (by rw [hraise, beq_false_of_ne hne, Bool.false_or])
    exact (raised hj.1).symm.trans (raised hk.1)

/-! ### The registers a command can write -/

/-- UPDATE and FINAL are the only commands that store to BUF or start a block event (R105, R106). -/
theorem stores_nothing (h : CommandOutcome s i t) (hupdate : ∀ b, i ≠ .update b) (hfinal : i ≠ .final) :
    t.buf = s.buf ∧ t.cont = s.cont ∧ t.seq = s.seq := by
  cases h with
  | absorbs b => exact absurd rfl (hupdate b)
  | pads => exact absurd rfl hfinal
  | _ => simp

/-- READ is the only command that draws a free value (R107). -/
theorem draws_eq (h : CommandOutcome s i t) (hread : ∀ idx, i ≠ .read idx) : t.draws = s.draws := by
  cases h with
  | misreads idx => exact absurd rfl (hread idx)
  | _ => simp

theorem hs_eq (h : CommandOutcome s i t) (hi : i ≠ .init) : t.hs = s.hs :=
  h.hs_cases.resolve_right fun hinit => hi hinit.2

theorem nbytes_eq (h : CommandOutcome s i t) (hi : i ≠ .init) (hupdate : ∀ b, i ≠ .update b) :
    t.nbytes = s.nbytes := by
  obtain heq | ⟨-, hinit⟩ | ⟨-, -, b, hb⟩ := h.nbytes_cases
  · exact heq
  · exact absurd hinit hi
  · exact absurd hb (hupdate b)

theorem phase_eq (h : CommandOutcome s i t) (hi : i ≠ .init) (hupdate : ∀ b, i ≠ .update b) : t.phase = s.phase := by
  obtain heq | ⟨-, hinit⟩ | ⟨-, -, -, b, hb⟩ := h.phase_cases
  · exact heq
  · exact absurd hinit hi
  · exact absurd hb (hupdate b)

end CommandOutcome

/-- READ in DONE draws no free value either (R107). -/
theorem commandEffect_draws {i : Instr} {s : State} (h : (∀ idx, i ≠ .read idx) ∨ s.phase = .done) :
    (commandEffect i s).draws = s.draws := by
  by_cases hread : ∃ idx, i = .read idx
  · obtain ⟨idx, rfl⟩ := hread
    have hdone := h.resolve_left fun hne => hne idx rfl
    rw [commandEffect, readEffect_of_done hdone]
  · exact (commandEffect_outcome i s).draws_eq fun idx hi => hread ⟨idx, hi⟩

/-! ### The bytes UPDATE and FINAL store -/

theorem updateEffect_read {s : State} (hw : s.buf.wf = true) (b : Byte) {a : Nat}
    (ha : s.phase = .absorb → s.nbytes.toNat ≠ 2 ^ 61 - 1 → a ≠ s.nbytes.toNat % 64) :
    (updateEffect b s).buf.read a = s.buf.read a := by
  obtain ⟨-, h⟩ | ⟨-, -, h⟩ | ⟨hp, hn, h⟩ := updateEffect_cases b s <;> rw [h]
  · rw [raise_buf]
  · rw [raise_buf]
  · rw [ne_eq, eq_maxMsgBytes_iff] at hn
    rw [absorbByte_buf, Memory.read_write hw, s.fill_eq, if_neg (ha hp hn).symm]

theorem finalEffect_read {s : State} (hw : s.buf.wf = true) {a : Nat}
    (ha : s.phase = .absorb → a < s.nbytes.toNat % 64 ∨ 64 ≤ a) :
    (finalEffect s).buf.read a = s.buf.read a := by
  obtain ⟨-, h⟩ | ⟨hp, h⟩ := finalEffect_cases s <;> rw [h]
  · rw [raise_buf]
  · obtain hlow | hhigh := ha hp
    · rw [read_finalPad hw (by omega), s.fill_eq, if_pos hlow]
    · rw [Memory.read_above (wf_finalPad hw) hhigh, Memory.read_above hw hhigh]

/-! ### The obligations -/

/-- What `exec` answers: the same state from a busy core, and the accepted command's effect otherwise. -/
theorem exec_next {i : Instr} {s t : State} (h : exec i s = .next t) :
    (s.seq ≠ .idle ∧ t = s) ∨ (s.seq = .idle ∧ t = { commandEffect i s with rspValid := responds i }) := by
  rw [exec_eq_accept] at h
  obtain ⟨hb, ht⟩ | ⟨hb, ht⟩ := accept_next h
  · exact .inl ⟨(busy_iff s).mp hb, ht⟩
  · exact .inr ⟨(not_busy_iff s).mp hb, ht⟩

/-- Settles O25: UPDATE and FINAL apart, no command stores; each further clause is the lemma about its register. -/
theorem frameOfNonStoringCommands : Obligations.FrameOfNonStoringCommands := by
  unfold Obligations.FrameOfNonStoringCommands
  intro i s t hupdate hfinal h
  obtain ⟨-, rfl⟩ | ⟨-, rfl⟩ := exec_next h
  · simp
  have hout := commandEffect_outcome i s
  obtain ⟨hbuf, hcont, hseq⟩ := hout.stores_nothing hupdate hfinal
  have hflag (k : CmdError) (hinit : i ≠ .init) (hk : ¬ mayRaise i k = true) :
      k.flag (commandEffect i s) = k.flag s := flag_commandEffect hinit (Bool.eq_false_iff.mpr hk) s
  refine ⟨fun a => congrArg (Memory.read · a) hbuf, commandEffect_w i s, commandEffect_ws i s, commandEffect_rnd i s,
    hcont, hseq, commandEffect_inputs i s, fun hinit => ?_, fun hinit hread => ?_, fun hinit h6 h7 => ?_,
    fun hread hstat => ?_, commandEffect_draws⟩
  · have hlen := hflag .len hinit (mt (mayRaise_len_iff i).mp (not_exists.mpr hupdate))
    exact ⟨hout.hs_eq hinit, hout.nbytes_eq hinit hupdate, hout.phase_eq hinit hupdate, hlen⟩
  · refine hflag .usage hinit (mt (mayRaise_usage_iff i).mp ?_)
    exact not_or.mpr ⟨not_exists.mpr hupdate, not_or.mpr ⟨hfinal, not_exists.mpr hread⟩⟩
  · exact hflag .illegal hinit (mt (mayRaise_illegal_iff i).mp (not_or.mpr ⟨h6, h7⟩))
  · exact hout.rspData_eq (Bool.eq_false_iff.mpr (mt (responds_iff i).mp (not_or.mpr ⟨not_exists.mpr hread, hstat⟩)))

/-- Settles O26: an absorbed byte goes to FILL and final padding to FILL..63; the other registers are those no UPDATE
and no FINAL writes. -/
theorem frameOfStoringCommands : Obligations.FrameOfStoringCommands := by
  unfold Obligations.FrameOfStoringCommands
  refine ⟨fun b s t hw h => ?_, fun s t hw h => ?_⟩
  · obtain ⟨-, rfl⟩ | ⟨hidle, rfl⟩ := exec_next h
    · simp
    have hout := commandEffect_outcome (.update b) s
    exact ⟨fun a ha => updateEffect_read hw b (ha hidle), hout.hs_eq nofun, commandEffect_w _ s, commandEffect_ws _ s,
      commandEffect_rnd _ s, hout.rspData_eq rfl, commandEffect_inputs _ s, hout.draws_eq nofun,
      flag_commandEffect (i := .update b) (k := .illegal) nofun rfl s⟩
  · obtain ⟨-, rfl⟩ | ⟨hidle, rfl⟩ := exec_next h
    · simp
    have hout := commandEffect_outcome .final s
    exact ⟨fun a ha => finalEffect_read hw (ha hidle), hout.hs_eq nofun, commandEffect_w _ s, commandEffect_ws _ s,
      commandEffect_rnd _ s, hout.rspData_eq rfl, commandEffect_inputs _ s, hout.draws_eq nofun,
      flag_commandEffect (i := .final) (k := .illegal) nofun rfl s,
      flag_commandEffect (i := .final) (k := .len) nofun rfl s,
      hout.nbytes_eq nofun nofun, hout.phase_eq nofun nofun⟩

/-- The effect of a command of R42, given again to the state it led to, changes nothing. -/
theorem commandEffect_again {i : Instr} {s : State} (hupdate : ∀ b, i ≠ .update b) (hfinal : i ≠ .final)
    (hread : (∃ idx, i = .read idx) → s.phase = .done) :
    { commandEffect i { commandEffect i s with rspValid := responds i } with rspValid := responds i } =
      { commandEffect i s with rspValid := responds i } := by
  cases i with
  | nop => rfl
  | init => rfl
  | update b => exact absurd rfl (hupdate b)
  | final => exact absurd rfl hfinal
  | read idx =>
    have hdone := hread ⟨idx, rfl⟩
    rw [commandEffect, readEffect_of_done hdone]
    exact congrArg (fun u : State => { u with rspValid := true })
      (readEffect_of_done (s := { s with rspData := digestByte s.hs idx, rspValid := true }) hdone idx)
  | rdstat => rfl
  | reserved6 => rfl
  | reserved7 => rfl

/-- Settles O27: the command leaves the core idle, so it is accepted again, and its effect is then no change. -/
theorem idempotentCommands : Obligations.IdempotentCommands := by
  unfold Obligations.IdempotentCommands
  intro i s t hupdate hfinal hread h
  obtain ⟨-, rfl⟩ | ⟨hidle, rfl⟩ := exec_next h
  · exact h
  obtain ⟨-, -, hseq⟩ := (commandEffect_outcome i s).stores_nothing hupdate hfinal
  exact (exec_of_idle (s := { commandEffect i s with rspValid := responds i }) (hseq.trans hidle) i).trans
    (congrArg Host.Outcome.next (commandEffect_again hupdate hfinal hread))

/-- Settles O50: the three pairs of flags are pairs of different errors. -/
theorem atMostOneErrorPerCommand : Obligations.AtMostOneErrorPerCommand := by
  unfold Obligations.AtMostOneErrorPerCommand
  intro i s t h
  obtain ⟨-, rfl⟩ | ⟨-, rfl⟩ := exec_next h
  · simp
  have unique {j k : CmdError} := (commandEffect_outcome i s).newFlag_unique (j := j) (k := k)
  refine ⟨?_, ?_, ?_⟩
  · rintro ⟨hu, hu', hi, hi'⟩
    cases unique (j := .usage) (k := .illegal) ⟨hu, hu'⟩ ⟨hi, hi'⟩
  · rintro ⟨hu, hu', hl, hl'⟩
    cases unique (j := .usage) (k := .len) ⟨hu, hu'⟩ ⟨hl, hl'⟩
  · rintro ⟨hi, hi', hl, hl'⟩
    cases unique (j := .illegal) (k := .len) ⟨hi, hi'⟩ ⟨hl, hl'⟩

end Sys2Proof.Machine

/-! ## Proofs about the invariants (10_state.md, 60_exceptions.md)

The control invariant says something else of an idle core than of one whose block event starts, so each gets a rule of
its own (`State.Inv.of_idle`, `State.Inv.of_load`). Every command and S_ACC lead to one of the two; S_LOAD and S_ROUND
change no more than SEQ and RND of what the invariant speaks of. -/

namespace Sys2Proof.Machine

/-! ### The record of raised errors -/

/-- The model's record of an error (92_eei_decisions.md D7). -/
def CmdError.recorded (k : CmdError) (s : State) : Bool :=
  match k with
  | .usage => s.raised.usage
  | .illegal => s.raised.illegal
  | .len => s.raised.len

/-- Raising an error records it and keeps what was recorded. -/
theorem recorded_raise (k e : CmdError) (s : State) : k.recorded (raise e s) = (e == k || k.recorded s) := by
  cases k <;> cases e <;> rfl

theorem recorded_of_raised_eq {s t : State} (h : t.raised = s.raised) (k : CmdError) :
    k.recorded t = k.recorded s := by
  cases k
  exacts [congrArg Raised.usage h, congrArg Raised.illegal h, congrArg Raised.len h]

/-- A command leaves the record or adds an error to it; INIT does not clear it. -/
theorem CommandOutcome.recorded_sticky {s t : State} {i : Instr} (h : CommandOutcome s i t) {k : CmdError}
    (hk : k.recorded s = true) : k.recorded t = true := by
  have keep {u : State} (hu : u.raised = s.raised) : k.recorded u = true := (recorded_of_raised_eq hu k).trans hk
  have hraise (e : CmdError) : k.recorded (raise e s) = true := by rw [recorded_raise, hk, Bool.or_true]
  cases h with
  | holds => exact hk
  | opens => exact keep (openComputation_raised s)
  | absorbs b => exact keep (absorbByte_raised b s)
  | overflows => exact hraise .len
  | pads => exact keep (finalPad_raised s)
  | answers => exact keep rfl
  | misreads => exact (recorded_of_raised_eq (drawRspData_raised _) k).trans (hraise .usage)
  | discards _ e => exact hraise e

theorem step_recorded_sticky {s t : State} (h : step s = .next t) {k : CmdError} (hk : k.recorded s = true) :
    k.recorded t = true := by
  obtain ⟨e, rest, -, -, rfl⟩ | ⟨cw, rest, -, rfl⟩ | ⟨-, rest, rfl⟩ | ⟨-, -, rest, hm⟩ := step_next h
  · exact (recorded_of_raised_eq (resetEffect_raised _) k).trans hk
  · exact (commandEffect_outcome (decode cw) { s with inputs := rest }).recorded_sticky hk
  · exact hk
  · exact (recorded_of_raised_eq (microStep_raised hm) k).trans hk

/-! ### The control invariant of a core at rest and of one that starts a block event -/

/-- Every set flag is recorded. -/
theorem State.Inv.flag_recorded {s : State} (h : s.Inv) (k : CmdError) : k.flag s = true → k.recorded s = true := by
  cases k
  exacts [h.raisedUsage, h.raisedIllegal, h.raisedLen]

theorem State.Inv.of_idle {s : State} (hidle : s.seq = .idle) (hw : s.buf.wf = true)
    (hlen : s.errLen = true ↔ s.phase = .fault) (hrec : ∀ k : CmdError, k.flag s = true → k.recorded s = true) :
    s.Inv where
  bufCanonical := hw
  roundIndex h := by rw [hidle] at h; cases h
  roundsDone h := by rw [hidle] at h; cases h
  busyInAbsorb h := absurd hidle h
  lenIffFault := hlen
  raisedUsage := hrec .usage
  raisedIllegal := hrec .illegal
  raisedLen := hrec .len
  absorbBlock h := absurd hidle h
  secondBlock h := absurd hidle h

theorem State.Inv.of_load {s : State} (hload : s.seq = .load) (hp : s.phase = .absorb) (hw : s.buf.wf = true)
    (hlen : s.errLen = true ↔ s.phase = .fault) (hrec : ∀ k : CmdError, k.flag s = true → k.recorded s = true)
    (habsorb : s.cont = .absorb → s.fill = 0) (hpad2 : s.cont = .pad2 → 56 ≤ s.fill) : s.Inv where
  bufCanonical := hw
  roundIndex h := by rw [hload] at h; cases h
  roundsDone h := by rw [hload] at h; cases h
  busyInAbsorb _ := hp
  lenIffFault := hlen
  raisedUsage := hrec .usage
  raisedIllegal := hrec .illegal
  raisedLen := hrec .len
  absorbBlock _ := habsorb
  secondBlock _ := hpad2

/-- The host's edges are no part of the invariant. -/
theorem State.Inv.withInputs {s : State} (h : s.Inv) (edges : List HostEdge) : State.Inv { s with inputs := edges } :=
  { h with }

/-- The response register and the draw counter are no part of the invariant. -/
theorem State.Inv.withResponse {s : State} (h : s.Inv) (valid : Bool) (d : Byte) (n : Nat) :
    State.Inv { s with rspValid := valid, rspData := d, draws := n } :=
  { h with }

/-! ### The commands keep the control invariant -/

section

variable {s : State}

/-- ERR_LEN enters FAULT, and no other error moves PHASE or that flag (60_exceptions.md R116, R117). -/
theorem inv_raise (h : s.Inv) (hidle : s.seq = .idle) (e : CmdError) : (raise e s).Inv := by
  refine .of_idle ((raise_seq e s).trans hidle) ?_ ?_ fun k hk => ?_
  · rw [raise_buf]
    exact h.bufCanonical
  · rw [raise_errLen, raise_phase]
    by_cases he : e = .len
    · simp [he]
    · simp [he, h.lenIffFault]
  · rw [flag_raise, Bool.or_eq_true] at hk
    rw [recorded_raise, Bool.or_eq_true]
    exact hk.imp_right (h.flag_recorded k)

theorem inv_openComputation (h : s.Inv) (hidle : s.seq = .idle) : (openComputation s).Inv :=
  .of_idle hidle h.bufCanonical ⟨nofun, nofun⟩ fun k hk => by cases k <;> cases hk

/-- FILL after a byte more (10_state.md R25). -/
theorem fill_absorbByte (b : Byte) (s : State) : (absorbByte b s).fill = (s.fill + 1) % 64 := by
  rw [State.fill_eq, State.fill_eq, absorbByte_nbytes, BitVec.toNat_add]
  show (s.nbytes.toNat + 1) % 2 ^ 61 % 64 = _
  omega

/-- The block event of a 64th byte starts with FILL = 0 (41_padder.md R76). -/
theorem inv_absorbByte (h : s.Inv) (hidle : s.seq = .idle) (hp : s.phase = .absorb) (b : Byte) :
    (absorbByte b s).Inv := by
  have hw : (absorbByte b s).buf.wf = true := by
    rw [absorbByte_buf]
    exact Memory.wf_write h.bufCanonical s.fill_lt b
  have hlen : (absorbByte b s).errLen = true ↔ (absorbByte b s).phase = .fault := by
    rw [absorbByte_errLen, absorbByte_phase]
    exact h.lenIffFault
  have hrec (k : CmdError) (hk : k.flag (absorbByte b s) = true) : k.recorded (absorbByte b s) = true := by
    rw [recorded_of_raised_eq (absorbByte_raised b s)]
    exact h.flag_recorded k ((flag_absorbByte k b s).symm.trans hk)
  by_cases hf : s.fill = 63
  · have hcont : (absorbByte b s).cont = .absorb := (absorbByte_cont b s).trans (if_pos hf)
    refine .of_load ((absorbByte_seq b s).trans (if_pos hf)) ((absorbByte_phase b s).trans hp) hw hlen hrec
      (fun _ => ?_) (fun hc => ?_)
    · rw [fill_absorbByte, hf]
    · cases hcont.symm.trans hc
  · exact .of_idle ((absorbByte_seq b s).trans ((if_neg hf).trans hidle)) hw hlen hrec

theorem fill_finalPad (s : State) : (finalPad s).fill = s.fill := by
  rw [State.fill_eq, State.fill_eq, finalPad_nbytes]

/-- Final padding chooses C_PAD2 where the length does not fit (41_padder.md R78). -/
theorem inv_finalPad (h : s.Inv) (hp : s.phase = .absorb) : (finalPad s).Inv := by
  refine .of_load (finalPad_seq s) ((finalPad_phase s).trans hp) (wf_finalPad h.bufCanonical) ?_ (fun k hk => ?_)
    (fun hc => ?_) (fun hc => ?_)
  · rw [finalPad_errLen, finalPad_phase]
    exact h.lenIffFault
  · rw [recorded_of_raised_eq (finalPad_raised s)]
    exact h.flag_recorded k ((flag_finalPad k s).symm.trans hk)
  · rw [finalPad_cont] at hc
    split_ifs at hc
  · rw [finalPad_cont] at hc
    rw [fill_finalPad]
    split_ifs at hc
    omega

theorem inv_commandEffect (h : s.Inv) (hidle : s.seq = .idle) (i : Instr) : (commandEffect i s).Inv := by
  cases i with
  | nop => exact h
  | init => exact inv_openComputation h hidle
  | update b =>
    show (updateEffect b s).Inv
    obtain ⟨-, heq⟩ | ⟨-, -, heq⟩ | ⟨hp, -, heq⟩ := updateEffect_cases b s <;> rw [heq]
    · exact inv_raise h hidle .usage
    · exact inv_raise h hidle .len
    · exact inv_absorbByte h hidle hp b
  | final =>
    show (finalEffect s).Inv
    obtain ⟨-, heq⟩ | ⟨hp, heq⟩ := finalEffect_cases s <;> rw [heq]
    · exact inv_raise h hidle .usage
    · exact inv_finalPad h hp
  | read idx =>
    show (readEffect idx s).Inv
    obtain ⟨-, heq⟩ | ⟨-, heq⟩ := readEffect_cases idx s <;> rw [heq]
    · exact (inv_raise h hidle .usage).withResponse _ _ _
    · exact h.withResponse _ _ _
  | rdstat => exact h.withResponse _ _ _
  | reserved6 => exact inv_raise h hidle .illegal
  | reserved7 => exact inv_raise h hidle .illegal

/-! ### The micro-steps keep the control invariant -/

theorem inv_sLoad (h : s.Inv) (hload : s.seq = .load) : (sLoad s).Inv := by
  have hbusy : s.seq ≠ .idle := by rw [hload]; nofun
  exact { h with
    roundIndex := fun _ => by rw [sLoad_rnd]; decide
    roundsDone := nofun
    busyInAbsorb := fun _ => h.busyInAbsorb hbusy
    absorbBlock := fun _ => h.absorbBlock hbusy
    secondBlock := fun _ => h.secondBlock hbusy }

/-- S_ROUND counts RND up, and to 64 in round 63 only (43_compressor.md R90). -/
theorem inv_roundStep (h : s.Inv) (hround : s.seq = .round) {j : Nat} (hj : j < 64) : (roundStep j hj s).Inv := by
  have hbusy : s.seq ≠ .idle := by rw [hround]; nofun
  exact { h with
    roundIndex := fun hq => by
      rw [roundStep_seq] at hq
      rw [roundStep_rnd_toNat]
      split_ifs at hq
      omega
    roundsDone := fun hq => by
      rw [roundStep_seq] at hq
      split_ifs at hq with h63
      rw [roundStep_rnd, h63]
    busyInAbsorb := fun _ => h.busyInAbsorb hbusy
    absorbBlock := fun _ => h.absorbBlock hbusy
    secondBlock := fun _ => h.secondBlock hbusy }

/-- S_ACC ends the block event, or starts that of the second padding block with CONT = C_DONE (R94). -/
theorem inv_sAcc (h : s.Inv) (hacc : s.seq = .acc) : (sAcc s).Inv := by
  have hp : s.phase = .absorb := h.busyInAbsorb (by rw [hacc]; nofun)
  have hw : (sAcc s).buf.wf = true := microStep_bufCanonical h.bufCanonical (microStep_of_acc hacc)
  have hlen : (sAcc s).errLen = true ↔ (sAcc s).phase = .fault := by
    rw [sAcc_errLen, h.lenIffFault, hp, sAcc_phase]
    split_ifs <;> simp [hp]
  have hrec (k : CmdError) (hk : k.flag (sAcc s) = true) : k.recorded (sAcc s) = true := by
    rw [recorded_of_raised_eq (sAcc_raised s)]
    exact h.flag_recorded k ((flag_sAcc k s).symm.trans hk)
  by_cases hc : s.cont = .pad2
  · have hcont : (sAcc s).cont = .done := (sAcc_cont s).trans (if_pos hc)
    have hphase : (sAcc s).phase = .absorb := by rw [sAcc_phase, if_neg (by rw [hc]; nofun), hp]
    refine .of_load ((sAcc_seq s).trans (if_pos hc)) hphase hw hlen hrec (fun h' => ?_) (fun h' => ?_) <;>
      cases hcont.symm.trans h'
  · exact .of_idle ((sAcc_seq s).trans (if_neg hc)) hw hlen hrec

theorem inv_microStep {t : State} (h : s.Inv) (hm : microStep s = .next t) : t.Inv := by
  obtain ⟨-, rfl⟩ | ⟨hq, rfl⟩ | ⟨hj, hq, rfl⟩ | ⟨hq, rfl⟩ := microStep_next hm
  · exact h
  · exact inv_sLoad h hq
  · exact inv_roundStep h hq hj
  · exact inv_sAcc h hq

theorem inv_resetEffect (s : State) : (resetEffect s).Inv :=
  .of_idle rfl (wf_resetEffect s) ⟨nofun, nofun⟩ fun k hk => by cases k <;> cases hk

end

/-! ### An idle core always steps -/

/-- An edge with rst = 0 and no offer changes nothing but that it is past. -/
theorem step_of_no_offer {s : State} {e : HostEdge} {rest : List HostEdge} (hidle : s.seq = .idle)
    (hin : s.inputs = e :: rest) (hr : e.rst = false) (hw : e.word = none) :
    step s = .next { s with inputs := rest } := by
  have hb : s.busy = false := (not_busy_iff s).mpr hidle
  simp [step, clockEdge, edgeWith, hin, hr, hw, State.cmdReady, hb]

theorem step_total_of_idle {s : State} (hidle : s.seq = .idle) (hr : ¬ resetComing s) : ∃ t, step s = .next t := by
  cases hin : s.inputs with
  | nil => exact ⟨s, (step_of_nil hin).trans (microStep_of_idle hidle)⟩
  | cons e rest =>
    have he : e.rst = false := Bool.eq_false_iff.mpr fun he => hr ⟨e, rest, hin, he⟩
    cases hw : e.word with
    | none => exact ⟨_, step_of_no_offer hidle hin he hw⟩
    | some cw =>
      rw [step_of_accepts ⟨hidle, e, hin, he, hw⟩]
      exact exec_total _ _

/-! ### The obligations -/

/-- Settles O40: a reset edge, an accepted command, a quiet edge and a micro-step each keep the invariant. -/
theorem stepKeepsControlInvariant : Obligations.StepKeepsControlInvariant := by
  unfold Obligations.StepKeepsControlInvariant
  intro s t hinv h
  obtain ⟨e, rest, -, -, rfl⟩ | ⟨cw, rest, hacc, rfl⟩ | ⟨-, rest, rfl⟩ | ⟨-, -, rest, hm⟩ := step_next h
  · exact inv_resetEffect _
  · obtain ⟨hidle, -⟩ := hacc
    exact (inv_commandEffect (hinv.withInputs rest) hidle (decode cw)).withResponse _ _ _
  · exact hinv.withInputs rest
  · exact inv_microStep (hinv.withInputs rest) hm

/-- Settles O41: right after reset the core is idle with no flag set. -/
theorem resetMeetsControlInvariant : Obligations.ResetMeetsControlInvariant := by
  unfold Obligations.ResetMeetsControlInvariant
  exact .of_idle rfl rfl ⟨nofun, nofun⟩ fun k hk => by cases k <;> cases hk

/-- Settles O42: the one fault is S_ROUND's with RND above 63, which the invariant excludes. -/
theorem invariantStateSteps : Obligations.InvariantStateSteps := by
  unfold Obligations.InvariantStateSteps
  intro s hinv
  by_cases hr : resetComing s
  · obtain ⟨edges, hstep⟩ := step_of_reset hr
    exact ⟨_, hstep⟩
  by_cases hidle : s.seq = .idle
  · exact step_total_of_idle hidle hr
  · obtain ⟨rest, hstep⟩ := step_of_busy_noReset hidle hr
    obtain ⟨t, hm, -⟩ := microStep_counts (s := { s with inputs := rest }) hidle hinv.roundIndex
    exact ⟨t, hstep.trans hm⟩

/-- Settles O43, by `step_keeps_blockProgress`. -/
theorem stepKeepsBlockProgress : Obligations.StepKeepsBlockProgress := by
  unfold Obligations.StepKeepsBlockProgress
  intro s t hs h
  exact step_keeps_blockProgress hs h

/-- Settles O44: right after reset no block event runs. -/
theorem resetMeetsBlockProgress : Obligations.ResetMeetsBlockProgress := by
  unfold Obligations.ResetMeetsBlockProgress
  exact .of_idle_or_load (.inl rfl)

/-- Settles O45: reset, INIT and the micro-steps leave the record, and a raised error adds to it. -/
theorem raisedRecordIsKept : Obligations.RaisedRecordIsKept := by
  unfold Obligations.RaisedRecordIsKept
  intro s t h
  have sticky (k : CmdError) (hk : k.recorded s = true) : k.recorded t = true := step_recorded_sticky h hk
  exact ⟨sticky .usage, sticky .illegal, sticky .len⟩

end Sys2Proof.Machine

/-! ## Proofs about the end of block events and the message stream (43_compressor.md, 45_commands.md)

The micro-steps a state has left (`State.microStepsLeft`) count down by one each step, and BUSY = 0 when none is left;
the two rules about the length of block events follow from that count. -/

namespace Sys2Proof.Machine

/-! ### A run through the block events -/

/-- A run of n micro-steps, each one of those left at its start, which keeps the host's edges, the record and the
flags. -/
structure CountedRun (s : State) (n : Nat) (t : State) : Prop where
  run : runSteps n s = .next t
  left : s.microStepsLeft = t.microStepsLeft + n
  enabled : t.RoundEnabled
  pending : t.inputs = s.inputs
  record : t.raised = s.raised
  flags : ∀ k : CmdError, k.flag t = k.flag s

/-- BUSY = 0 exactly when no micro-step is left. -/
theorem microStepsLeft_eq_zero_iff {s : State} (hr : s.RoundEnabled) : s.microStepsLeft = 0 ↔ s.busy = false := by
  rw [not_busy_iff]
  refine ⟨fun h => ?_, microStepsLeft_of_idle⟩
  by_contra hbusy
  obtain ⟨t, -, -, hcount⟩ := microStep_counts hbusy hr
  omega

/-- As many micro-steps as are left can be run, while the host holds. -/
theorem countedRun {s : State} (hr : s.RoundEnabled) (hh : hostHolds s.inputs) {n : Nat}
    (hn : n ≤ s.microStepsLeft) : ∃ t, CountedRun s n t := by
  induction n with
  | zero => exact ⟨s, rfl, rfl, hr, rfl, rfl, fun _ => rfl⟩
  | succ n ih =>
    obtain ⟨t, ht⟩ := ih (by omega)
    have hleft := ht.left
    have hbusy : t.seq ≠ .idle := fun hidle => by
      rw [microStepsLeft_of_idle hidle] at hleft
      omega
    obtain ⟨u, hm, hru, hcount⟩ := microStep_counts hbusy ht.enabled
    have hstep : step t = .next u := (step_of_busy_held hbusy (ht.pending ▸ hh)).trans hm
    have hin : u.inputs = t.inputs := (microStep_inputs hm []).2
    exact ⟨u, (run_add ht.run).trans (run_succ 0 hstep), by omega, hru, hin.trans ht.pending,
      (microStep_raised hm).trans ht.record, fun k => (microStep_flag hm k).trans (ht.flags k)⟩

/-- BUSY = 1 before every micro-step that is left, and BUSY = 0 after the last (R88). -/
theorem busy_for_microStepsLeft {s : State} (hr : s.RoundEnabled) (hh : hostHolds s.inputs) :
    (∀ k < s.microStepsLeft, ∃ u, runSteps k s = .next u ∧ u.busy = true) ∧
      ∃ u, CountedRun s s.microStepsLeft u ∧ u.busy = false := by
  refine ⟨fun k hk => ?_, ?_⟩
  · obtain ⟨u, hu⟩ := countedRun hr hh hk.le
    have hleft := hu.left
    refine ⟨u, hu.run, ?_⟩
    rw [← Bool.not_eq_false, ← microStepsLeft_eq_zero_iff hu.enabled]
    omega
  · obtain ⟨u, hu⟩ := countedRun hr hh le_rfl
    have hleft := hu.left
    exact ⟨u, hu, (microStepsLeft_eq_zero_iff hu.enabled).mp (by omega)⟩

/-! ### The block events a command starts -/

/-- The commands that store nothing start no block event. -/
theorem microStepsLeft_of_stores_nothing {s : State} (hidle : s.seq = .idle) {i : Instr}
    (hupdate : ∀ b, i ≠ .update b) (hfinal : i ≠ .final) : (commandEffect i s).microStepsLeft = 0 := by
  obtain ⟨-, -, hseq⟩ := (commandEffect_outcome i s).stores_nothing hupdate hfinal
  exact microStepsLeft_of_idle (hseq.trans hidle)

/-- A command given to an idle core leaves 66 micro-steps for each block event it starts (R76, R78). -/
theorem microStepsLeft_commandEffect {s : State} (hidle : s.seq = .idle) (i : Instr) :
    (commandEffect i s).microStepsLeft = 66 * blockEvents i s := by
  cases i with
  | update b =>
    show (updateEffect b s).microStepsLeft = _
    obtain ⟨hp, h⟩ | ⟨-, hn, h⟩ | ⟨hp, hn, h⟩ := updateEffect_cases b s <;> rw [h]
    · rw [microStepsLeft_of_idle ((raise_seq _ s).trans hidle), blockEvents, if_neg fun hc => hp hc.1]
    · rw [microStepsLeft_of_idle ((raise_seq _ s).trans hidle), blockEvents, if_neg fun hc => hc.2.1 hn]
    · by_cases hf : s.fill = 63
      · rw [microStepsLeft_of_load ((absorbByte_seq b s).trans (if_pos hf)), absorbByte_cont, if_pos hf,
          if_neg nofun, blockEvents, if_pos ⟨hp, hn, hf⟩]
      · rw [microStepsLeft_of_idle ((absorbByte_seq b s).trans ((if_neg hf).trans hidle)), blockEvents,
          if_neg fun hc => hf hc.2.2]
  | final =>
    show (finalEffect s).microStepsLeft = _
    obtain ⟨hp, h⟩ | ⟨hp, h⟩ := finalEffect_cases s <;> rw [h]
    · rw [microStepsLeft_of_idle ((raise_seq _ s).trans hidle), blockEvents, if_neg hp]
    · rw [microStepsLeft_of_load (finalPad_seq s), finalPad_cont, blockEvents, if_pos hp]
      by_cases hf : s.fill ≤ 55
      · rw [if_pos hf, if_pos hf, if_neg nofun]
      · rw [if_neg hf, if_neg hf, if_pos rfl]
  | _ => exact microStepsLeft_of_stores_nothing hidle nofun nofun

/-- Settles O38: the micro-steps left after a command are 66 for each block event, and BUSY falls with the last. -/
theorem busyForItsBlockEvents : Obligations.BusyForItsBlockEvents := by
  unfold Obligations.BusyForItsBlockEvents
  intro i s t hidle hh h
  obtain ⟨hbusy, -⟩ | ⟨-, rfl⟩ := exec_next h
  · exact absurd hidle hbusy
  have hleft : State.microStepsLeft { commandEffect i s with rspValid := responds i } = 66 * blockEvents i s :=
    microStepsLeft_commandEffect hidle i
  have henabled : State.RoundEnabled { commandEffect i s with rspValid := responds i } := fun hround => by
    obtain hq | hq := (commandEffect_outcome i s).seq_idle_or_load hidle <;> cases hq.symm.trans hround
  have hin : hostHolds (commandEffect i s).inputs := (commandEffect_inputs i s).symm ▸ hh
  obtain ⟨hrun, u, hu, hend⟩ := busy_for_microStepsLeft henabled hin
  rw [hleft] at hrun hu
  exact ⟨hrun, u, hu.run, hend⟩

/-- Settles O39: at most 132 micro-steps are left, and they keep the flags and the record. -/
theorem blockEventsEnd : Obligations.BlockEventsEnd := by
  unfold Obligations.BlockEventsEnd
  intro s hinv hh
  obtain ⟨-, t, ht, hend⟩ := busy_for_microStepsLeft hinv.roundIndex hh
  exact ⟨s.microStepsLeft, microStepsLeft_le s, t, ht.run, hend, ht.pending, ht.record, ht.flags .usage,
    ht.flags .illegal, ht.flags .len⟩

/-! ### The message stream -/

/-- Settles O52: INIT opens the computation of the empty message, and `Absorbed` holds along its UPDATEs. -/
theorem updatesCompressEagerly : Obligations.UpdatesCompressEagerly := by
  unfold Obligations.UpdatesCompressEagerly
  intro s msg hidle hw hlimit hin
  rw [← List.append_nil (updatesWords msg)] at hin
  obtain ⟨t, hstep, ht⟩ := absorbed_of_init hidle hin hw
  obtain ⟨u, hrun, hu⟩ := ht.run_updates (by simpa using hlimit)
  refine ⟨u, ?_, ⟨hu.pending, (not_busy_iff u).mpr hu.ready⟩, hu.inAbsorb, hu.count, hu.chained, hu.record, hu.tail⟩
  rw [← run_succ _ hstep] at hrun
  rw [← hrun]
  congr 1
  simp only [List.length_nil, Nat.zero_add, Nat.zero_div, Nat.sub_zero]
  omega

end Sys2Proof.Machine

/-! ## Proofs about the host's port and the platform (45_commands.md, 20_memory.md)

What a busy core leaves on the host's port is the function `edgesAfterBusy`; the two statements about every host compare
runs step by step, and a core that waits out the pauses before a command catches up with one that has none
(`step_catchesUp`). -/

namespace Sys2Proof.Machine

/-! ### STATUS and the state after reset -/

/-- Where the concatenation of R20 puts each field. -/
theorem status_fields : ∀ (valid len illegal usage busy : Bool) (phase : BitVec 2) (v : Byte),
    v = 0#1 ++ BitVec.ofBool valid ++ BitVec.ofBool len ++ BitVec.ofBool illegal ++ BitVec.ofBool usage ++ phase ++
      BitVec.ofBool busy →
    v.getLsbD 0 = busy ∧ v.extractLsb' 1 2 = phase ∧ v.getLsbD 3 = usage ∧ v.getLsbD 4 = illegal ∧
      v.getLsbD 5 = len ∧ v.getLsbD 6 = valid ∧ v.getLsbD 7 = false := by
  simp only [forall_eq]
  decide

/-- Settles O23: BUSY and DIGEST_VALID are read off SEQ and PHASE, and the other fields are stored. -/
theorem statusLayout : Obligations.StatusLayout := by
  unfold Obligations.StatusLayout
  intro s
  obtain ⟨hbusy, hphase, husage, hillegal, hlen, hvalid, htop⟩ := status_fields _ _ _ _ _ _ s.status rfl
  have hcode (p : Phase) (hp : s.phase = p) : s.status.extractLsb' 1 2 = p.code := hp ▸ hphase
  have hseq : s.busy = decide (s.seq ≠ .idle) := by rw [Bool.eq_iff_iff, busy_iff, decide_eq_true_iff]
  have hdone : s.digestValid = decide (s.phase = .done) := by
    rw [Bool.eq_iff_iff, digestValid_iff, decide_eq_true_iff]
  exact ⟨hbusy.trans hseq, hcode .idle, hcode .absorb, hcode .done, hcode .fault, husage, hillegal, hlen,
    hvalid.trans hdone, htop⟩

/-- Settles O14, by evaluation of what the state after reset shows. -/
theorem resetStateShows : Obligations.ResetStateShows := by
  unfold Obligations.ResetStateShows
  exact ⟨rfl, rfl, rfl, rfl, rfl, rfl, rfl, rfl, rfl, rfl⟩

/-! ### Acceptance -/

/-- Settles O29: such an edge accepts its word, and `withFetchWord` puts an accepting edge in front. -/
theorem stepRunsDecodedCommand : Obligations.StepRunsDecodedCommand := by
  unfold Obligations.StepRunsDecodedCommand
  refine ⟨fun s e cw rest hin hr hoffer hidle => ?_, fun s w hw => ?_⟩
  · have hbusy : s.busy = false := (not_busy_iff s).mpr hidle
    have hword : e.word = some cw := by
      obtain h | h := hoffer <;> rw [HostEdge.word, h]
    exact ⟨by rw [State.cmdReady, hbusy]; rfl, step_of_accepts ⟨hidle, e, hin, hr, hword⟩⟩
  · have hfit : w % 2 ^ 16 = w := Nat.mod_eq_of_lt (by omega)
    have hacc : accepts (s.withFetchWord 16 w) (BitVec.ofNat 11 (w % 2 ^ 16)) s.inputs :=
      ⟨rfl, _, rfl, rfl, rfl⟩
    rw [step_of_accepts hacc, hfit]
    rfl

/-- Settles O30: the host holds, so the step is the micro-step, which does not move the host's edges. -/
theorem commandHeldWhileBusy : Obligations.CommandHeldWhileBusy := by
  unfold Obligations.CommandHeldWhileBusy
  refine ⟨fun s cw rest hin hs => ?_, fun i s hs => exec_of_busy ((busy_iff s).mpr hs)⟩
  have hstep : step s = microStep s := step_of_busy_held hs (.inr ⟨cw, rest, hin⟩)
  refine ⟨by rw [State.cmdReady, (busy_iff s).mpr hs]; rfl, hstep, fun t ht => ?_⟩
  exact (microStep_inputs (hstep.symm.trans ht) []).2

/-- Settles O31: both edges are gone after the micro-step. -/
theorem withdrawnCommandHasNoEffect : Obligations.WithdrawnCommandHasNoEffect := by
  unfold Obligations.WithdrawnCommandHasNoEffect
  intro s cw rest hin hs
  have hb : s.busy = true := (busy_iff s).mpr hs
  rw [step_of_busy hin rfl hb, step_of_busy (s := { s with inputs := ⟨false, .quiet⟩ :: rest }) rfl rfl hb]
  rfl

/-- Settles O32: an idle core has no micro-step, and an edge with no offer has nothing to accept. -/
theorem quietCoreHoldsState : Obligations.QuietCoreHoldsState := by
  unfold Obligations.QuietCoreHoldsState
  exact ⟨fun s hidle hin => (step_of_nil hin).trans (microStep_of_idle hidle),
    fun s rest hidle hin => step_of_no_offer hidle hin rfl rfl⟩

/-! ### The cores of a platform (20_memory.md R48) -/

section

variable {n : Nat} {cores after : Vector State n} {i : Fin n}

theorem platformStep_of_step {s : State} (h : step cores[i] = .next s) :
    platformStep cores i = .next (cores.set i s) := by
  rw [platformStep, h]

theorem platformStep_next (h : platformStep cores i = .next after) :
    ∃ s, step cores[i] = .next s ∧ after = cores.set i s := by
  unfold platformStep at h
  split at h
  · rename_i s hs
    cases h
    exact ⟨s, hs, rfl⟩
  · cases h
  · cases h

/-- A step of one core leaves the others. -/
theorem getElem_set_of_ne {j : Fin n} (hij : j ≠ i) (s : State) : (cores.set i s)[j] = cores[j] :=
  Vector.getElem_set_ne _ _ (fun h => hij (Fin.ext h.symm))

end

/-- Settles O54: a core's step reads and writes its own entry of the platform only. -/
theorem instancesShareNothing : Obligations.InstancesShareNothing := by
  unfold Obligations.InstancesShareNothing
  refine ⟨fun n cores after i h => ?_, fun n cores p q i j hij hp hq => ?_⟩
  · obtain ⟨s, hs, rfl⟩ := platformStep_next h
    exact ⟨by simpa using hs, fun j hj => getElem_set_of_ne hj s⟩
  · obtain ⟨s, hs, rfl⟩ := platformStep_next hp
    obtain ⟨t, ht, rfl⟩ := platformStep_next hq
    rw [getElem_set_of_ne hij.symm] at ht
    refine ⟨cores.set j t, platformStep_of_step ht, ?_⟩
    rw [Vector.set_comm _ _ (fun h => hij (Fin.ext h))]
    refine platformStep_of_step ?_
    rw [getElem_set_of_ne hij, hs]

/-! ### Every host of a busy core -/

/-- What the host drives after an edge at which the core was busy: a held word stays, any other offer is gone (R100). -/
def edgesAfterBusy : List HostEdge → List HostEdge
  | [] => []
  | e :: rest => e.unaccepted rest

/-- With no reset coming a busy core takes its micro-step, and what it leaves of the host's edges is
`edgesAfterBusy`. -/
theorem step_of_busy_edges {s : State} {edges : List HostEdge} (hs : s.seq ≠ .idle)
    (hr : ∀ e ∈ edges.take 1, e.rst = false) :
    step { s with inputs := edges } = microStep { s with inputs := edgesAfterBusy edges } := by
  cases edges with
  | nil => exact step_of_nil rfl
  | cons e rest => exact step_of_busy rfl (hr e (by simp)) ((busy_iff _).mpr hs)

/-- A held word comes without reset, so no reset moves nearer than its own edge. -/
theorem rst_edgesAfterBusy {edges : List HostEdge} {k : Nat} (hr : ∀ e ∈ edges.take (k + 1), e.rst = false) :
    ∀ e ∈ (edgesAfterBusy edges).take k, e.rst = false := by
  cases edges with
  | nil => simp [edgesAfterBusy]
  | cons e rest =>
    have hrest : ∀ e' ∈ rest.take k, e'.rst = false := fun e' he' => hr e' (List.mem_cons_of_mem e he')
    intro e' he'
    by_cases hhold : ∃ cw, e.offer = .hold cw
    · obtain ⟨cw, ho⟩ := hhold
      rw [edgesAfterBusy, unaccepted_of_hold ho] at he'
      obtain rfl | hmem := List.mem_cons.mp (List.take_subset_take_left _ (Nat.le_succ k) he')
      · rfl
      · exact hrest e' hmem
    · rw [edgesAfterBusy, unaccepted_of_not_hold (not_exists.mp hhold)] at he'
      exact hrest e' he'

theorem withInputs_eq_self {s : State} {edges : List HostEdge} (h : s.inputs = edges) :
    { s with inputs := edges } = s := by
  rw [← h]

/-- Settles O55: each edge without reset is taken with the micro-step of the run that has no edges. -/
theorem busyCoreIgnoresHost : Obligations.BusyCoreIgnoresHost := by
  unfold Obligations.BusyCoreIgnoresHost
  intro k
  induction k with
  | zero =>
    intro s t _ hrun _
    cases hrun
    exact ⟨s.inputs, rfl⟩
  | succ k ih =>
    intro s t hbusy hrun hr
    obtain ⟨s', hs', hb⟩ := hbusy 0 (Nat.succ_pos k)
    cases hs'
    have hs : s.seq ≠ .idle := (busy_iff _).mp hb
    obtain ⟨u, hstep, hrest⟩ := run_succ_next hrun
    have hm : microStep { s with inputs := [] } = .next u := (step_of_nil rfl).symm.trans hstep
    obtain ⟨hmicro, hin⟩ := microStep_inputs hm (edgesAfterBusy s.inputs)
    have hu : { u with inputs := [] } = u := withInputs_eq_self hin
    have hhost : step s = .next { u with inputs := edgesAfterBusy s.inputs } :=
      (step_of_busy_edges hs fun e he => hr e (List.take_subset_take_left _ (by omega) he)).trans hmicro
    obtain ⟨rest, hend⟩ := ih { u with inputs := edgesAfterBusy s.inputs } t
      (fun m hm => by
        obtain ⟨v, hv, hvb⟩ := hbusy (m + 1) (by omega)
        rw [run_succ m hstep] at hv
        exact ⟨v, hu.symm ▸ hv, hvb⟩)
      (hu.symm ▸ hrest) (rst_edgesAfterBusy hr)
    exact ⟨rest, (run_succ k hhost).trans hend⟩

/-! ### Pauses between commands -/

/-- The host's edges without its pauses. -/
def withoutPauses (edges : List HostEdge) : List HostEdge := edges.filter fun e => e != ⟨false, .quiet⟩

theorem withoutPauses_pause (rest : List HostEdge) :
    withoutPauses (⟨false, .quiet⟩ :: rest) = withoutPauses rest := rfl

theorem withoutPauses_cons {e : HostEdge} (h : e ≠ ⟨false, .quiet⟩) (rest : List HostEdge) :
    withoutPauses (e :: rest) = e :: withoutPauses rest := by
  simp [withoutPauses, h]

/-- Edges with commands and pauses only begin with none, with a pause, or with the first command. -/
theorem issued_cases {edges : List HostEdge} {words : List CmdWord} (h : withoutPauses edges = issue words) :
    (edges = [] ∧ words = []) ∨
    (∃ rest, edges = ⟨false, .quiet⟩ :: rest ∧ withoutPauses rest = issue words) ∨
    ∃ cw rest words', edges = ⟨false, .hold cw⟩ :: rest ∧ words = cw :: words' ∧
      withoutPauses rest = issue words' := by
  cases edges with
  | nil =>
    refine .inl ⟨rfl, ?_⟩
    cases words with
    | nil => rfl
    | cons cw words => cases h
  | cons e rest =>
    by_cases he : e = ⟨false, .quiet⟩
    · subst he
      exact .inr (.inl ⟨rest, rfl, h⟩)
    · rw [withoutPauses_cons he] at h
      cases words with
      | nil => cases h
      | cons cw words =>
        obtain ⟨rfl, hrest⟩ := List.cons.inj h
        exact .inr (.inr ⟨cw, rest, words, rfl, rfl, hrest⟩)

/-- A busy core leaves the commands and takes at most a pause. -/
theorem edgesAfterBusy_issued {edges : List HostEdge} {words : List CmdWord} (h : withoutPauses edges = issue words) :
    (∀ e ∈ edges.take 1, e.rst = false) ∧ withoutPauses (edgesAfterBusy edges) = issue words ∧
      (edgesAfterBusy edges).length ≤ edges.length := by
  obtain ⟨rfl, -⟩ | ⟨rest, rfl, hrest⟩ | ⟨cw, rest, words', rfl, -, -⟩ := issued_cases h
  · exact ⟨nofun, h, le_rfl⟩
  · exact ⟨by simp, hrest, Nat.le_succ _⟩
  · exact ⟨by simp, h, le_rfl⟩

/-- An accepted command leads to one state, the edges that follow apart. -/
theorem step_of_hold {s : State} (hidle : s.seq = .idle) (cw : CmdWord) (rest : List HostEdge) :
    step { s with inputs := ⟨false, .hold cw⟩ :: rest } =
      .next { commandEffect (decode cw) s with inputs := rest, rspValid := responds (decode cw) } := by
  rw [step_of_accepts (s := { s with inputs := ⟨false, .hold cw⟩ :: rest }) (cw := cw) (rest := rest)
    ⟨hidle, _, rfl, rfl, rfl⟩]
  have hexec := exec_of_idle (s := { s with inputs := rest }) hidle (decode cw)
  rw [commandEffect_withInputs] at hexec
  exact hexec

/-- The core with the host edges `edges` reaches, some steps on, the state `u` and still has its commands to come; the
steps over one are made up for by the pauses that are gone. -/
def CatchesUp (s u : State) (edges : List HostEdge) : Prop :=
  ∃ m later words, runSteps (m + 1) { s with inputs := edges } = .next { u with inputs := later } ∧
    u.inputs = issue words ∧ withoutPauses later = issue words ∧ m + later.length ≤ edges.length

/-- An idle core waits out the pauses and then accepts the command. -/
theorem step_catchesUp_of_idle {s u : State} {edges : List HostEdge} {words : List CmdWord} (hidle : s.seq = .idle)
    (hedges : withoutPauses edges = issue words) (h : step { s with inputs := issue words } = .next u) :
    CatchesUp s u edges := by
  induction edges with
  | nil =>
    obtain ⟨-, rfl⟩ | ⟨rest, hrest, -⟩ | ⟨cw, rest, words', hrest, -⟩ := issued_cases hedges
    · have hhold : step { s with inputs := issue [] } = .next { s with inputs := [] } :=
        (step_of_nil rfl).trans (microStep_of_idle hidle)
      cases hhold.symm.trans h
      exact ⟨0, [], [], run_succ 0 h, rfl, rfl, le_rfl⟩
    · cases hrest
    · cases hrest
  | cons e rest ih =>
    obtain ⟨hnil, -⟩ | ⟨rest', hpause, hrest⟩ | ⟨cw, rest', words', hhold, rfl, hrest⟩ := issued_cases hedges
    · cases hnil
    · cases hpause
      obtain ⟨m, later, words', hrun, hin, hlater, hlen⟩ := ih hrest
      have hstep : step { s with inputs := ⟨false, .quiet⟩ :: rest } = .next { s with inputs := rest } :=
        step_of_no_offer (s := { s with inputs := ⟨false, .quiet⟩ :: rest }) hidle rfl rfl rfl
      exact ⟨m + 1, later, words', (run_succ (m + 1) hstep).trans hrun, hin, hlater, by
        rw [List.length_cons]; omega⟩
    · cases hhold
      cases (step_of_hold hidle cw (issue words')).symm.trans h
      exact ⟨0, rest, words', run_succ 0 (step_of_hold hidle cw rest), rfl, hrest, by
        rw [List.length_cons]; omega⟩

/-- A busy core takes its micro-step at a pause as at a held command. -/
theorem step_catchesUp_of_busy {s u : State} {edges : List HostEdge} {words : List CmdWord} (hbusy : s.seq ≠ .idle)
    (hedges : withoutPauses edges = issue words) (h : step { s with inputs := issue words } = .next u) :
    CatchesUp s u edges := by
  obtain ⟨hr, hafter, hlen⟩ := edgesAfterBusy_issued hedges
  have hm : microStep { s with inputs := issue words } = .next u :=
    (step_of_busy_held (s := { s with inputs := issue words }) hbusy (hostHolds_issue words)).symm.trans h
  obtain ⟨hmicro, hin⟩ := microStep_inputs hm (edgesAfterBusy edges)
  have hstep := (step_of_busy_edges hbusy hr).trans hmicro
  exact ⟨0, edgesAfterBusy edges, words, run_succ 0 hstep, hin, hafter, by omega⟩

/-- What one step does without pauses, the core does with them, at most one step later per pause that is gone. -/
theorem step_catchesUp {s u : State} {edges : List HostEdge} {words : List CmdWord}
    (hedges : withoutPauses edges = issue words) (h : step { s with inputs := issue words } = .next u) :
    CatchesUp s u edges := by
  by_cases hidle : s.seq = .idle
  · exact step_catchesUp_of_idle hidle hedges h
  · exact step_catchesUp_of_busy hidle hedges h

/-- A run with pauses reaches what the run without them reaches, later by at most one step per edge. -/
theorem run_catchesUp {k : Nat} {s t : State} {edges : List HostEdge} {words : List CmdWord}
    (hedges : withoutPauses edges = issue words) (h : runSteps k { s with inputs := issue words } = .next t) :
    ∃ n later, k ≤ n ∧ n ≤ k + edges.length ∧
      runSteps n { s with inputs := edges } = .next { t with inputs := later } ∧ withoutPauses later = t.inputs := by
  induction k generalizing s edges words with
  | zero =>
    cases h
    exact ⟨0, edges, le_rfl, Nat.zero_le _, rfl, hedges⟩
  | succ k ih =>
    obtain ⟨u, hstep, hrun⟩ := run_succ_next h
    obtain ⟨m, later, words', hfirst, hin, hlater, hlen⟩ := step_catchesUp hedges hstep
    have hu : { u with inputs := issue words' } = u := withInputs_eq_self hin
    obtain ⟨n, later', hlow, hhigh, hrest, hend⟩ := ih (s := u) hlater (hu.symm ▸ hrun)
    exact ⟨m + 1 + n, later', by omega, by omega, (run_add hfirst).trans hrest, hend⟩

/-- Settles O56. The model's free values depend on the draw count alone, so RSP_DATA is the same in both runs even where
one was drawn (log entry 22), which the statement leaves open. -/
theorem gapsBetweenCommands : Obligations.GapsBetweenCommands := by
  unfold Obligations.GapsBetweenCommands
  intro k s t words edges hedges h
  obtain ⟨n, later, hlow, hhigh, hrun, hend⟩ := run_catchesUp hedges h
  exact ⟨n, later, t.rspData, hlow, hhigh, hrun, fun _ => rfl, hend⟩

end Sys2Proof.Machine
